-- ==== Sys2Proof/Word.lean ====
section
/-! DEFINITION. The word types of the Bloom filter engine (spec/00_scope.md R9, spec/10_state.md R10). -/

namespace Sys2Proof

/-- A byte is 8 bits (R9). -/
abbrev Byte := BitVec 8

/-- A finite byte sequence: a command or response message, a payload, an item, an image (R9, R50). -/
abbrev Message := List Byte

/-- A bit count or a bit index: 48 bits (R12, R56). -/
abbrev Index := BitVec 48

/-- A seed count: 16 bits (R14). -/
abbrev Count := BitVec 16

/-- A hash seed: 32 bits (R15). -/
abbrev Seed := BitVec 32

/-- A hash value: 64 bits (R8). -/
abbrev Hash := BitVec 64

end Sys2Proof
end

