-- ==== Sys2Proof/Config.lean ====
section
/-! DEFINITION. What one engine fixes: the three capacities and the hash function (spec/00_scope.md R5 to R8). -/

namespace Sys2Proof

/-- The four parameters of an engine (R5 to R8). The type of each field is exactly the range the spec allows it, so every
value of this type is a legal engine and no proof needs a side condition. -/
structure Config where
  /-- `MAXBITS - 1`: R5 gives `1 <= MAXBITS <= 2^48 - 1`, hence `2^48 - 1` values. -/
  maxBitsLessOne : Fin 281474976710655
  /-- `KMAX`, `0 .. 65535` (R6). -/
  kMax : BitVec 16
  /-- `ITEMMAX`, `0 .. 2^48 - 1` (R7). -/
  itemMax : BitVec 48
  /-- `hash64`, a total function of its two arguments and nothing else (R8). -/
  hash64 : Message → Seed → Hash
  deriving Inhabited

/-- `MAXBITS`, the capacity of the bit-array memory in bits (R5). -/
def Config.maxBits (c : Config) : Nat := c.maxBitsLessOne.val + 1

/-- The engine this model is about. The constant is opaque: nothing in Lean can see its capacities or evaluate its hash, so
a claim about it holds for every engine (R5 to R8; log 9, log 10). -/
opaque Config.engine : Config

end Sys2Proof
end

