-- ==== Sys2Proof/Machine/Bytes.lean ====
section
/-! DEFINITION. Byte-order and length helpers shared by the decoder, the formatter and the responses
(spec/00_scope.md section 7, spec/20_memory.md R32). -/

namespace Sys2Proof

/-- `LE_n(v)`: the `n`-byte sequence whose byte `i` is `v[8i+7:8i]`, least significant byte first (R9). -/
def leBytes : Nat → Nat → Message
  | 0, _ => []
  | n + 1, v => BitVec.ofNat 8 v :: leBytes n (v / 256)

/-- `le(s)`: the sum of `s[i] * 2^(8i)` (R9). -/
def leValue : Message → Nat
  | [] => 0
  | b :: s => b.toNat + 256 * leValue s

/-- `ceil8(m) = (m + 7) div 8`, the number of bytes that hold `m` bits (R9). -/
def ceil8 (m : Nat) : Nat := (m + 7) / 8

/-- `s[a .. a + n)`, the sub-sequence of `n` bytes from index `a` (R9). -/
def slice (s : Message) (a n : Nat) : Message := (s.drop a).take n

/-- The first `k` seeds laid out in a byte sequence, 4 bytes each, in order: `le(s[4j .. 4j + 4))` (R55, R138). -/
def seedsOfBytes : Nat → Message → List Seed
  | 0, _ => []
  | k + 1, s => BitVec.ofNat 32 (leValue (s.take 4)) :: seedsOfBytes k (s.drop 4)

/-- `LE_4(s_0) ++ LE_4(s_1) ++ ...` (R55, R130). -/
def bytesOfSeeds (seeds : List Seed) : Message := seeds.flatMap fun s => leBytes 4 s.toNat

end Sys2Proof
end

