-- ==== Sys2Proof/Syntax.lean ====
section
/-! DEFINITION. The commands of the engine, their opcodes, the status names of its responses and the names of what a
decoder rejects (spec/30_encoding.md R53 to R63, spec/60_exceptions.md R170). -/

namespace Sys2Proof

/-- The nine opcodes of R53, by name. -/
inductive Op where
  | config | setbit | getbit | add | addv | has | clear | serialize | load
  deriving DecidableEq, Repr

/-- A decoded command: one constructor for each row of spec/opcode_table.json, with the operands of R55 to R63. -/
inductive Instr where
  /-- `CONFIG m=<m> seeds=[...]`, `k` the length of the list (R55, R80). -/
  | config (m : Index) (k : Count) (seeds : List Seed)
  /-- `SETBIT i` (R56). -/
  | setbit (i : Index)
  /-- `GETBIT i` (R57). -/
  | getbit (i : Index)
  /-- `ADD item` (R58). -/
  | add (item : Message)
  /-- `ADDV [item_0, ..., item_(n-1)]` (R59). -/
  | addv (items : List Message)
  /-- `HAS item` (R60). -/
  | has (item : Message)
  /-- `CLEAR` (R61). -/
  | clear
  /-- `SERIALIZE` (R62). -/
  | serialize
  /-- `LOAD image`, the image unparsed (R63). -/
  | load (image : Message)
  deriving DecidableEq, Repr

/-- The names of the status byte (R170). -/
inductive Status where
  | ok | opcode | format | notConfigured | config | capacity | range | version | seedOverflow | image
  deriving DecidableEq, Repr

/-- Why a byte sequence is no command: one name for each failing step of R54. -/
inductive DecodeError where
  /-- Step 1: fewer than 8 bytes, no complete header. -/
  | shortHeader
  /-- Step 3: the length field disagrees with the message. -/
  | lengthMismatch
  /-- Step 4: the opcode byte is `0x00` or `0x0A .. 0xFF` (R65). -/
  | illegalOpcode
  /-- Step 5: the reserved byte is not `0x00` (R65). -/
  | reservedByte
  /-- Step 7: the payload has not the shape its opcode requires (R55 to R62). -/
  | payloadShape
  deriving DecidableEq, Repr

end Sys2Proof
end

