-- ==== Sys2Proof/WellFormed.lean ====
section
/-! DEFINITION. Which commands have an encoding: the payload length must fit the 48-bit `plen` field and the seed count
of `CONFIG` must be the length of its list (spec/30_encoding.md R51, R55, R59). -/

namespace Sys2Proof

/-- The number of payload bytes of a command, `plen` of R51 (R55 to R63). -/
def Instr.payloadLength : Instr → Nat
  | .config _ _ seeds => 8 + 4 * seeds.length
  | .setbit _ => 6
  | .getbit _ => 6
  | .add item => item.length
  | .addv items => 6 + (items.map fun x => 6 + x.length).sum
  | .has item => item.length
  | .clear => 0
  | .serialize => 0
  | .load image => image.length

/-- The operand `k` of `CONFIG` is the length of its seed list (R55: `plen = 8 + 4k`); no other command has such a
constraint. -/
def Instr.countAgrees : Instr → Bool
  | .config _ k seeds => seeds.length == k.toNat
  | .setbit _ => true
  | .getbit _ => true
  | .add _ => true
  | .addv _ => true
  | .has _ => true
  | .clear => true
  | .serialize => true
  | .load _ => true

/-- A command that a packet can carry (R51: `plen` is 48 bits). -/
def Instr.wellFormed (i : Instr) : Bool :=
  i.countAgrees && decide (i.payloadLength < 2 ^ 48)

end Sys2Proof
end

