-- ==== Sys2Proof/Decode.lean ====
section
/-! DEFINITION. The decoder of command messages, total and rejecting by name, and after it the encoder
(spec/30_encoding.md R51 to R66). -/

namespace Sys2Proof

/-- The opcode byte of each command (R53). -/
def Op.byte : Op → Byte
  | .config => 0x01
  | .setbit => 0x02
  | .getbit => 0x03
  | .add => 0x04
  | .addv => 0x05
  | .has => 0x06
  | .clear => 0x07
  | .serialize => 0x08
  | .load => 0x09

/-- Every legal opcode (R53). -/
def Op.all : List Op := [.config, .setbit, .getbit, .add, .addv, .has, .clear, .serialize, .load]

/-- The command an opcode byte selects; none for the illegal bytes `0x00` and `0x0A .. 0xFF` (R53, R65). -/
def Op.ofByte (b : Byte) : Option Op := Op.all.find? fun op => op.byte == b

/-- The opcode of a decoded command. -/
def Instr.op : Instr → Op
  | .config _ _ _ => .config
  | .setbit _ => .setbit
  | .getbit _ => .getbit
  | .add _ => .add
  | .addv _ => .addv
  | .has _ => .has
  | .clear => .clear
  | .serialize => .serialize
  | .load _ => .load

/-- The status a rejected message is answered with (R54, R173, R174). -/
def DecodeError.status : DecodeError → Status
  | .shortHeader => .format
  | .lengthMismatch => .format
  | .illegalOpcode => .opcode
  | .reservedByte => .format
  | .payloadShape => .format

/-- The fields of the 8-byte header (R51). -/
def headerOpcode (M : Message) : Byte := M.getD 0 0
/-- `plen`, 6 bytes at offset 1 (R51). -/
def headerPlen (M : Message) : Nat := leValue (slice M 1 6)
/-- `rsv`, the byte at offset 7 (R51). -/
def headerRsv (M : Message) : Byte := M.getD 7 0

/-- The records of an `ADDV` payload after its count: `n` times `LE_6(L) ++ item`, and no trailing byte (R59). -/
def itemsOfBytes : Nat → Message → Option (List Message)
  | 0, p => if p = [] then some [] else none
  | n + 1, p =>
    if p.length < 6 then none
    else
      let L := leValue (p.take 6)
      if (p.drop 6).length < L then none
      else (itemsOfBytes n ((p.drop 6).drop L)).map fun rest => (p.drop 6).take L :: rest

/-- Operand assembly per command (R55 to R63); none on a shape mismatch. -/
def decodePayload (op : Op) (p : Message) : Option Instr :=
  match op with
  | .config =>
    if p.length < 8 then none
    else
      let k := leValue (slice p 6 2)
      if p.length ≠ 8 + 4 * k then none
      else some (.config (BitVec.ofNat 48 (leValue (p.take 6))) (BitVec.ofNat 16 k) (seedsOfBytes k (p.drop 8)))
  | .setbit => if p.length ≠ 6 then none else some (.setbit (BitVec.ofNat 48 (leValue p)))
  | .getbit => if p.length ≠ 6 then none else some (.getbit (BitVec.ofNat 48 (leValue p)))
  | .add => some (.add p)
  | .addv =>
    if p.length < 6 then none
    else (itemsOfBytes (leValue (p.take 6)) (p.drop 6)).map .addv
  | .has => some (.has p)
  | .clear => if p = [] then some .clear else none
  | .serialize => if p = [] then some .serialize else none
  | .load => some (.load p)

/-- R54: decode is total; the first step that fails ends decoding with its name. -/
def decode (M : Message) : Except DecodeError Instr :=
  if M.length < 8 then .error .shortHeader
  else if M.length ≠ 8 + headerPlen M then .error .lengthMismatch
  else
    match Op.ofByte (headerOpcode M) with
    | none => .error .illegalOpcode
    | some op =>
      if headerRsv M ≠ 0 then .error .reservedByte
      else
        match decodePayload op (M.drop 8) with
        | none => .error .payloadShape
        | some i => .ok i

/-- The payload of a command (R55 to R63). -/
def encodePayload : Instr → Message
  | .config m k seeds => leBytes 6 m.toNat ++ leBytes 2 k.toNat ++ bytesOfSeeds seeds
  | .setbit i => leBytes 6 i.toNat
  | .getbit i => leBytes 6 i.toNat
  | .add item => item
  | .addv items => leBytes 6 items.length ++ items.flatMap fun x => leBytes 6 x.length ++ x
  | .has item => item
  | .clear => []
  | .serialize => []
  | .load image => image

/-- The message of a well-formed command: opcode, `plen`, `rsv = 0x00`, payload (R51). -/
def encode (i : Instr) : Message :=
  [i.op.byte] ++ leBytes 6 (encodePayload i).length ++ [0x00] ++ encodePayload i

/-- The most payload bytes of zeros `tableMessage` lays out beyond the bits it is given (log 15). -/
def tablePadding : Nat := 4096

/-- The message whose bits are `w`, numbered as spec/opcode_table.json numbers them (bit 0 the least significant bit of the
first byte), with every byte the message has above `nbits` equal to `0x00`: the header's own `plen` says how long the message is
(R51, R66). DESIGN CHOICE (log 15): where that asks for more than `tablePadding` bytes of zeros, none is laid out. -/
def tableMessage (nbits w : Nat) : Message :=
  let bits := leBytes ((nbits + 7) / 8) w
  let header := bits ++ List.replicate (8 - bits.length) 0x00
  let missing := 8 + headerPlen header - header.length
  if missing ≤ tablePadding then header ++ List.replicate missing 0x00 else header

/-- What the decoder reads from the message whose bits are `w` (the host's question about a row of the opcode table). -/
def decodeTableWord (nbits w : Nat) : Option Instr :=
  match decode (tableMessage nbits w) with
  | .ok i => some i
  | .error _ => none

end Sys2Proof
end

