-- ==== Sys2Proof/Machine/State.lean ====
section
/-! DEFINITION. The state of the engine as plain data, the two channels to the host, and the state after reset
(spec/10_state.md R10 to R24, spec/30_encoding.md R50, spec/70_reset_and_hazards.md R200). -/

namespace Sys2Proof.Machine

/-- The bit-array memory `BUF` (R10, R30) as a list of (address, byte) pairs in canonical form: addresses strictly rising, no
byte equal to what an unlisted address reads as (`Memory.wf`, Machine/Ops.lean). -/
abbrev Memory := List Host.Cell

/-- One thing the host does on the channel or on the reset input (R50, R200, R201, R203). -/
inductive HostEvent where
  /-- A command message, any byte sequence (R203). -/
  | command (M : Message)
  /-- Reset asserted between two commands; loss of power too (R200, R191). -/
  | reset
  /-- A command message during whose execution reset is asserted (R201). -/
  | commandCut (M : Message)
  deriving DecidableEq, Repr

/-- The machine. `valid` to `buf` are the five items of R10, the complete architectural state of the engine. `inbox` and `out` are
the model's own: what the host will do next and the responses emitted so far (log 1, log 2). -/
structure State where
  /-- `VALID`, 1 bit (R11). -/
  valid : Bool
  /-- `BITCOUNT`, 48 bits (R12). -/
  bitcount : Index
  /-- `K`, 16 bits (R14). -/
  k : Count
  /-- `SEED[0], SEED[1], ...`, 32 bits each: the live registers in order (R15; log 7). -/
  seeds : List Seed
  /-- `BUF`: the live bytes (R16; log 7). -/
  buf : Memory
  /-- What the host does next, first event first (R50, R203; log 1). -/
  inbox : List HostEvent
  /-- The response messages emitted so far, oldest first (R50, R211; log 2). -/
  out : List Message
  deriving DecidableEq, Repr

/-- The reasons the machine could stop with a fault: none. Every fault of this hardware is a response with a non-zero status and an
unchanged state, after which the engine is ready for the next command (R171), so it is a NEXT state; "a model has no stuck state"
(R209). No constructor, hence nothing raises one: safe (log 18). -/
inductive Fault where
  deriving DecidableEq, Repr

/-- The reasons the model could give an instruction no meaning. -/
inductive Refusal where
  /-- Raised only by an arm of `exec` that has no meaning yet, under its mnemonic. No arm is left so. Safe: the model stops. -/
  | notModelled (mnemonic : String)
  deriving DecidableEq, Repr

/-- How a step or a command of this machine ends. -/
abbrev Result := Host.Outcome State Fault Refusal

/-- R23, R200: after reset `VALID = 0`. DESIGN CHOICE (log 4): `BITCOUNT`, `K`, `SEED` and `BUF`, which R23 leaves unspecified and
unobservable, are 0, 0, none listed and nothing listed. The engine is idle: nothing on either channel. -/
def State.reset : State where
  valid := false
  bitcount := 0
  k := 0
  seeds := []
  buf := []
  inbox := []
  out := []

end Sys2Proof.Machine
end

