-- ==== Sys2Proof/Machine/Flags.lean ====
section
/-! DEFINITION. The status byte, and the one-byte answers. The engine has no result flags: its only flag is
`VALID`, a field of State (spec/60_exceptions.md R170, spec/30_encoding.md R52 and R64, spec/10_state.md R11 and R21). -/

namespace Sys2Proof.Machine

/-- The value of the status byte (R170). -/
def statusByte : Status → Byte
  | .ok => 0x00
  | .opcode => 0x01
  | .format => 0x02
  | .notConfigured => 0x03
  | .config => 0x04
  | .capacity => 0x05
  | .range => 0x06
  | .version => 0x07
  | .seedOverflow => 0x08
  | .image => 0x09

/-- A one-bit result as a response byte: `0x01` true, `0x00` false (R64). -/
def boolByte (b : Bool) : Byte := if b then 0x01 else 0x00

end Sys2Proof.Machine
end

