-- ==== Sys2Proof/Machine/Ops.lean ====
section
/-! DEFINITION. The named operations every meaning is built from: the byte memory, the seed registers, responding, raising a
fault, and the reset event (spec/20_memory.md, spec/10_state.md, spec/30_encoding.md R52, spec/60_exceptions.md R171,
spec/70_reset_and_hazards.md R200). -/

namespace Sys2Proof.Machine

/-- What an address that is not listed reads as. After `CONFIG` and `CLEAR` this is the spec's own zero (R18, R125); before a
Filter exists it is a DESIGN CHOICE that no command can observe (log 6). -/
def unlistedByte : Byte := 0x00

/-- `MemRead(a, 1)` (R33): the byte at `a`. DEDUCED (log 12): no bound is checked, since no command reaches an address beyond the
live buffer (R35). -/
def Memory.read : Memory → Nat → Byte
  | [], _ => unlistedByte
  | (b, v) :: rest, a => if a = b then v else Memory.read rest a

/-- Put a byte in front of a memory whose addresses are all higher, unless an unlisted address reads as that byte anyway. -/
def Memory.cons (a : Nat) (v : Byte) (mem : Memory) : Memory :=
  if v = unlistedByte then mem else (a, v) :: mem

/-- `MemWrite(a, 1, v)` (R33): keeps the canonical form. -/
def Memory.write : Memory → Nat → Byte → Memory
  | [], a, v => Memory.cons a v []
  | (b, w) :: rest, a, v =>
    if a < b then Memory.cons a v ((b, w) :: rest)
    else if a = b then Memory.cons a v rest
    else (b, w) :: Memory.write rest a v

/-- OR-write (R33): a read and a write of the same byte, indivisible. -/
def Memory.orWrite (mem : Memory) (a : Nat) (v : Byte) : Memory := mem.write a (mem.read a ||| v)

/-- Write `0x00` to every `a` in `[0, n)` (R34, `CLEAR`). -/
def Memory.zeroBelow (mem : Memory) (n : Nat) : Memory := mem.filter fun c => decide (n ≤ c.1)

/-- A memory that holds the given bytes from address `a` on and nothing else (R34, `LOAD`). -/
def Memory.ofBytesAt : Nat → Message → Memory
  | _, [] => []
  | a, v :: bytes => Memory.cons a v (Memory.ofBytesAt (a + 1) bytes)

/-- `BUF[0 .. n)` as a byte sequence: `n` byte reads (R9, R34 `SERIALIZE`). -/
def Memory.readRange (mem : Memory) (n : Nat) : Message := (List.range n).map mem.read

/-- The canonical form from address `lo` on: addresses strictly rising, no byte that an unlisted address reads as. -/
def Memory.wfFrom : Nat → Memory → Bool
  | _, [] => true
  | lo, (a, v) :: rest => decide (lo ≤ a) && decide (v ≠ unlistedByte) && Memory.wfFrom (a + 1) rest

/-- The canonical form: equal memories are equal lists. -/
def Memory.wf (mem : Memory) : Bool := Memory.wfFrom 0 mem

/-- `SEED[j]` (R15). DESIGN CHOICE (log 8): a register not listed reads 0; in every state a run reaches, `SEED[0 .. K)` is listed. -/
def State.seed (s : State) (j : Nat) : Seed := s.seeds.getD j 0

/-- `[SEED[0], ..., SEED[K-1]]` (R24). -/
def State.liveSeeds (s : State) : List Seed := (List.range s.k.toNat).map s.seed

/-- The number of buffer bytes in use, `ceil8(BITCOUNT)`; computed, never stored (R12, R16). -/
def State.liveBytes (s : State) : Nat := ceil8 s.bitcount.toNat

/-- `BUF[0 .. ceil8(BITCOUNT))` (R16, R24). -/
def State.liveBuffer (s : State) : Message := s.buf.readRange s.liveBytes

/-- A response message (R52): status, `LE_6(rlen)`, echo of the opcode byte, payload. -/
def responseMessage (st : Status) (echo : Byte) (payload : Message) : Message :=
  [statusByte st] ++ leBytes 6 payload.length ++ [echo] ++ payload

/-- Emit one response on the response channel (R50). -/
def State.emit (s : State) (P : Message) : State := { s with out := s.out ++ [P] }

/-- `respond(p)`: the command ends normally with status `OK` and payload `p` (R9). -/
def respond (op : Op) (payload : Message) (s : State) : Result :=
  .next (s.emit (responseMessage .ok op.byte payload))

/-- `raise E_X`: the whole of taking a fault (R171). No register or memory changes, the response carries the code, an empty
payload and the opcode byte, and the engine is ready for the next command. Nothing is saved and nothing returns. -/
def raiseFault (st : Status) (echo : Byte) (s : State) : Result :=
  .next (s.emit (responseMessage st echo []))

/-- The first check of the seven commands that read the Filter: `E_NOT_CONFIGURED` when `VALID = 0` (R175). -/
def withFilter (op : Op) (s : State) (body : Result) : Result :=
  if s.valid = false then raiseFault .notConfigured op.byte s else body

/-- The reset event (R200): `VALID <- 0`; no response; the channels are the host's and are left alone (log 19). DESIGN CHOICE
(log 5): the registers and memory that become unspecified take their values of `State.reset`. -/
def State.afterReset (s : State) : State := { State.reset with inbox := s.inbox, out := s.out }

end Sys2Proof.Machine
end

