-- ==== Sys2Proof/Machine/Operands.lean ====
section
/-! DEFINITION. The operand forms: the bit-position mapper, the hash lanes, the OR and AND accumulators, the item length check and
the fields of an image (spec/41_bit_storage.md R90, spec/42_hash_lanes.md R101 to R103, spec/43_insert_query.md R111 and R115,
spec/45_serialization.md R130 and R138). -/

namespace Sys2Proof.Machine

/-- `byteIndex(i) = i div 8` (R90, R91). -/
def byteIndex (i : Nat) : Nat := i / 8

/-- `bitOffset(i) = i mod 8` (R90, R91). -/
def bitOffset (i : Nat) : Nat := i % 8

/-- `mask(i) = 1 << bitOffset(i)`, a byte (R90). -/
def bitMask (i : Nat) : Byte := 1#8 <<< bitOffset i

/-- Bit `i` of a memory: `(BUF[byteIndex(i)] & mask(i)) != 0` (R90). -/
def Memory.bit (mem : Memory) (i : Nat) : Bool := mem.read (byteIndex i) &&& bitMask i != 0

/-- One OR-write of the mask of bit `i` into its byte (R92, R111). -/
def Memory.setBit (mem : Memory) (i : Nat) : Memory := mem.orWrite (byteIndex i) (bitMask i)

/-- The OR accumulator: one OR-write for each index (R111). -/
def Memory.setBits (mem : Memory) (idxs : List Nat) : Memory := idxs.foldl Memory.setBit mem

/-- The AND accumulator: the AND of the addressed bits, 1 over no bit (R115, R117). -/
def Memory.allBits (mem : Memory) (idxs : List Nat) : Bool := idxs.foldl (fun r i => r && mem.bit i) true

/-- One lane: `hash64(x, SEED[j]) mod BITCOUNT`, the exact remainder of the unsigned 64-bit value (R101, R102).
DEDUCED (log 13): the divisor is never 0 while `VALID = 1`. -/
def laneIndex (c : Config) (m : Index) (x : Message) (seed : Seed) : Nat := (c.hash64 x seed).toNat % m.toNat

/-- `Lanes(x)`: the `K` lane indices in seed order (R103). -/
def lanes (c : Config) (s : State) (x : Message) : List Nat := s.liveSeeds.map (laneIndex c s.bitcount x)

/-- The body of `ADD(x)`, lines 3 to 6 of R111. -/
def insertItem (c : Config) (s : State) (x : Message) : State := { s with buf := s.buf.setBits (lanes c s x) }

/-- `len(x) > ITEMMAX` (R110). -/
def itemTooLong (c : Config) (x : Message) : Bool := decide (c.itemMax.toNat < x.length)

/-- `bitCount` of an image: 6 bytes at offset 1 (R130, R132). -/
def imageBitCount (I : Message) : Nat := leValue (slice I 1 6)

/-- The seed count of an image: the byte at offset 7 (R130, R133). -/
def imageSeedCount (I : Message) : Nat := (I.getD 7 0).toNat

/-- The seeds of an image: 4 bytes each from offset 8 (R130). -/
def imageSeeds (I : Message) : List Seed := seedsOfBytes (imageSeedCount I) (I.drop 8)

/-- The buffer of an image: everything from offset `8 + 4k` (R130, R134). -/
def imageBuffer (I : Message) : Message := I.drop (8 + 4 * imageSeedCount I)

/-- `Image(m, s, b)` with the seed-count byte `k` (R130). -/
def imageMessage (m : Index) (k : Byte) (seeds : List Seed) (buffer : Message) : Message :=
  [0x01] ++ leBytes 6 m.toNat ++ [k] ++ bytesOfSeeds seeds ++ buffer

/-- The checks of `LOAD`, in the order of R138 and R172, `ok` where every one passes (R139). -/
def imageStatus (c : Config) (I : Message) : Status :=
  if I.length = 0 then .image
  else if I.getD 0 0 ≠ 0x01 then .version
  else if I.length < 8 then .image
  else if I.length < 8 + 4 * imageSeedCount I then .image
  else if imageBitCount I = 0 then .image
  else if (imageBuffer I).length ≠ ceil8 (imageBitCount I) then .image
  else if c.maxBits < imageBitCount I then .capacity
  else if c.kMax.toNat < imageSeedCount I then .capacity
  else .ok

end Sys2Proof.Machine
end

