-- ==== Sys2Proof/Machine/BitStorage.lean ====
section
/-! DEFINITION. Bit storage: SETBIT and GETBIT (spec/41_bit_storage.md R90 to R97). -/

namespace Sys2Proof.Machine

/-- The two checks of `SETBIT` and `GETBIT`: `E_NOT_CONFIGURED`, then `E_RANGE` against `BITCOUNT`, padding bits included (R92 to R94). -/
def withIndex (op : Op) (i : Index) (s : State) (body : Result) : Result :=
  withFilter op s (if s.bitcount ≤ i then raiseFault .range op.byte s else body)

/-- `SETBIT i` (R92). -/
def execSetbit (i : Index) (s : State) : Result :=
  withIndex .setbit i s (respond .setbit [] { s with buf := s.buf.setBit i.toNat })

/-- `GETBIT i` (R94). -/
def execGetbit (i : Index) (s : State) : Result :=
  withIndex .getbit i s (respond .getbit [boolByte (s.buf.bit i.toNat)] s)

end Sys2Proof.Machine
end

