-- ==== Sys2Proof/Machine/ClearBuffer.lean ====
section
/-! DEFINITION. Reset of the bit array: CLEAR (spec/44_clear.md R125 to R129). -/

namespace Sys2Proof.Machine

/-- `CLEAR` (R125): `0x00` to every `a` in `[0, ceil8(BITCOUNT))`, padding bits included; configuration kept. -/
def execClear (s : State) : Result :=
  withFilter .clear s (respond .clear [] { s with buf := s.buf.zeroBelow s.liveBytes })

end Sys2Proof.Machine
end

