-- ==== Sys2Proof/Machine/Construct.lean ====
section
/-! DEFINITION. Construction from explicit configuration: CONFIG (spec/40_construct.md R80 to R85). -/

namespace Sys2Proof.Machine

/-- R82 on the engine `c`: `E_CONFIG`, `E_CAPACITY` (m), `E_CAPACITY` (k), in that order and before any write; then a new Filter that
replaces the old one whole (R83), every buffer byte `0x00` (R18). DESIGN CHOICE (log 20): a `k` that is not the length of the list, which no
message decodes to, is written as it stands. -/
def configOn (c : Config) (m : Index) (k : Count) (seeds : List Seed) (s : State) : Result :=
  if m = 0 then raiseFault .config Op.config.byte s
  else if c.maxBits < m.toNat then raiseFault .capacity Op.config.byte s
  else if c.kMax.toNat < k.toNat then raiseFault .capacity Op.config.byte s
  else respond .config [] { s with valid := true, bitcount := m, k := k, seeds := seeds, buf := [] }

/-- `CONFIG m=<m> seeds=[...]` (R82). -/
def execConfig (m : Index) (k : Count) (seeds : List Seed) (s : State) : Result :=
  configOn Config.engine m k seeds s

end Sys2Proof.Machine
end

