-- ==== Sys2Proof/Machine/Formatter.lean ====
section
/-! DEFINITION. The formatter: SERIALIZE and LOAD (spec/45_serialization.md R130 to R144). -/

namespace Sys2Proof.Machine

/-- `SERIALIZE` (R135): `E_NOT_CONFIGURED`, then `E_SEED_OVERFLOW` where `K > 255` (R136), then the image. -/
def execSerialize (s : State) : Result :=
  withFilter .serialize s
    (if 255 < s.k.toNat then raiseFault .seedOverflow Op.serialize.byte s
     else respond .serialize (imageMessage s.bitcount (s.k.setWidth 8) s.liveSeeds s.liveBuffer) s)

/-- R138 on the engine `c`: all checks before any write; then a Filter that replaces the old one whole, the buffer copied verbatim (R140). -/
def loadOn (c : Config) (I : Message) (s : State) : Result :=
  if imageStatus c I = .ok then
    respond .load []
      { s with
        valid := true
        bitcount := BitVec.ofNat 48 (imageBitCount I)
        k := BitVec.ofNat 16 (imageSeedCount I)
        seeds := imageSeeds I
        buf := Memory.ofBytesAt 0 (imageBuffer I) }
  else raiseFault (imageStatus c I) Op.load.byte s

/-- `LOAD I` (R138). -/
def execLoad (I : Message) (s : State) : Result := loadOn Config.engine I s

end Sys2Proof.Machine
end

