-- ==== Sys2Proof/Machine/InsertQuery.lean ====
section
/-! DEFINITION. Insertion and membership test: ADD, ADDV, HAS (spec/43_insert_query.md R110 to R122). -/

namespace Sys2Proof.Machine

/-- The two checks of `ADD`, `ADDV` and `HAS`: `E_NOT_CONFIGURED`, then `E_CAPACITY` where some item is longer than `ITEMMAX`; both
before any write (R111, R114, R115). -/
def withItems (c : Config) (op : Op) (items : List Message) (s : State) (body : Result) : Result :=
  withFilter op s (if items.any (itemTooLong c) then raiseFault .capacity op.byte s else body)

/-- R111 on the engine `c`. -/
def addOn (c : Config) (x : Message) (s : State) : Result :=
  withItems c .add [x] s (respond .add [] (insertItem c s x))

/-- `ADD x` (R111). -/
def execAdd (x : Message) (s : State) : Result := addOn Config.engine x s

/-- R114 on the engine `c`: the body of `ADD` for each item in order. -/
def addvOn (c : Config) (items : List Message) (s : State) : Result :=
  withItems c .addv items s (respond .addv [] (items.foldl (insertItem c) s))

/-- `ADDV [x_0, ..., x_(n-1)]` (R114). -/
def execAddv (items : List Message) (s : State) : Result := addvOn Config.engine items s

/-- R115 on the engine `c`: the AND over all lanes (R116). -/
def hasOn (c : Config) (x : Message) (s : State) : Result :=
  withItems c .has [x] s (respond .has [boolByte (s.buf.allBits (lanes c s x))] s)

/-- `HAS x` (R115). -/
def execHas (x : Message) (s : State) : Result := hasOn Config.engine x s

end Sys2Proof.Machine
end

