-- ==== Sys2Proof/Machine/Dispatch.lean ====
section
/-! DEFINITION. One arm per command: which meaning runs (spec/30_encoding.md R53). -/

namespace Sys2Proof.Machine

def exec (i : Instr) (s : State) : Host.Outcome State Fault Refusal :=
  match i with
  | .config m k seeds => Sys2Proof.Machine.execConfig m k seeds s
  | .setbit idx => Sys2Proof.Machine.execSetbit idx s
  | .getbit idx => Sys2Proof.Machine.execGetbit idx s
  | .add item => Sys2Proof.Machine.execAdd item s
  | .addv items => Sys2Proof.Machine.execAddv items s
  | .has item => Sys2Proof.Machine.execHas item s
  | .clear => Sys2Proof.Machine.execClear s
  | .serialize => Sys2Proof.Machine.execSerialize s
  | .load image => Sys2Proof.Machine.execLoad image s

end Sys2Proof.Machine
end

