-- ==== Sys2Proof/Machine/Fetch.lean ====
section
/-! DEFINITION. Taking the host's next event (spec/30_encoding.md R50 and R54, spec/70_reset_and_hazards.md R200 and R201). -/

namespace Sys2Proof.Machine

/-- One command message (R50, R54): decode it; a rejected one is answered with its status and the echo of its first byte, `0x00` where it
has none, and changes nothing; a decoded one is executed to completion. DEDUCED (log 17): the message arrives as it was sent. -/
def takeCommand (M : Message) (s : State) : Result :=
  match decode M with
  | .error e => raiseFault e.status (headerOpcode M) s
  | .ok i => exec i s

/-- One event of the host. A command cut by reset leaves the reset state and no response (R201; log 11). -/
def takeEvent (e : HostEvent) (s : State) : Result :=
  match e with
  | .command M => takeCommand M s
  | .reset => .next s.afterReset
  | .commandCut _ => .next s.afterReset

/-- The engine takes the next event; with none it is idle and waits (R200; log 3). -/
def takeNext (s : State) : Result :=
  match s.inbox with
  | [] => .next s
  | e :: rest => takeEvent e { s with inbox := rest }

end Sys2Proof.Machine
end

