-- ==== Sys2Proof/Machine/Step.lean ====
section
/-! DEFINITION. One step: the engine takes the host's next event and deals with it to completion (spec/30_encoding.md R50,
spec/20_memory.md R37). -/

namespace Sys2Proof.Machine

/-- One step of the machine: one event of the host, one command to completion. DEDUCED (log 14): a command is atomic (R37, R38). -/
def step (s : State) : Host.Outcome State Fault Refusal := takeNext s

/-- The state with the message whose bits are `w` put where the engine takes its next command: first in `inbox` (log 16). -/
def State.withFetchWord (s : State) (nbits w : Nat) : State :=
  { s with inbox := .command (tableMessage nbits w) :: s.inbox }

end Sys2Proof.Machine
end

