-- ==== Sys2Proof/Safety.lean ====
section
/-! DEFINITION. The terms claims are stated in: the invariant of the engine, the Filter value, equality of engines, and which steps
take set bits away (spec/10_state.md R12 to R16 and R24, spec/43_insert_query.md R118, spec/95_test_vectors.md section 5). -/

namespace Sys2Proof.Machine

/-- The Filter value `F = (m, s, b)` of R24. -/
structure FilterValue where
  /-- `m = BITCOUNT`. -/
  m : Index
  /-- `s = [SEED[0], ..., SEED[K-1]]`. -/
  s : List Seed
  /-- `b = BUF[0 .. ceil8(BITCOUNT))`. -/
  b : Message
  deriving DecidableEq, Repr

/-- The Filter value of a state (R24); it means something while `VALID = 1`. -/
def State.filter (s : State) : FilterValue where
  m := s.bitcount
  s := s.liveSeeds
  b := s.liveBuffer

/-- R24: two engine states are equal when both have `VALID = 0`, or both have `VALID = 1` and equal Filter values. -/
def State.SameEngine (s t : State) : Prop :=
  s.valid = t.valid ∧ (s.valid = true → s.filter = t.filter)

/-- Everything a host can see of two machines agrees, now and in what it has been told: the engines are equal in the sense of R24, the
host will do the same, and the responses so far are the same. -/
def State.Indistinguishable (s t : State) : Prop :=
  s.SameEngine t ∧ s.inbox = t.inbox ∧ s.out = t.out

/-- The invariant of every state a run reaches (R12, R14, R15, R16; spec/95_test_vectors.md P4). The memory has its canonical form, and
while `VALID = 1` the registers are in range, the live seeds are exactly the listed ones, and no byte is listed outside the live buffer. -/
structure State.Inv (s : State) : Prop where
  canonical : s.buf.wf = true
  bitcountPositive : s.valid = true → 1 ≤ s.bitcount.toNat
  bitcountFits : s.valid = true → s.bitcount.toNat ≤ Config.engine.maxBits
  countFits : s.valid = true → s.k.toNat ≤ Config.engine.kMax.toNat
  seedsCounted : s.valid = true → s.seeds.length = s.k.toNat
  bufInside : s.valid = true → ∀ c ∈ s.buf, c.1 < s.liveBytes

/-- The event is a command message that no reset cuts, so it gets a response (R50, R201). -/
def HostEvent.answered : HostEvent → Bool
  | .command _ => true
  | .reset => false
  | .commandCut _ => false

/-- A command runs to the state `t` and is answered with status `OK`. -/
def CompletesOk (i : Instr) (s t : State) : Prop :=
  exec i s = .next t ∧ ∃ payload, t.out = s.out ++ [responseMessage .ok i.op.byte payload]

/-- The next step may turn a 1 bit into a 0 bit: a reset, or a `CLEAR`, `CONFIG` or `LOAD` that is answered `OK` (R118). A faulting command
is none of these. -/
def State.NextTakesBits (s : State) : Prop :=
  match s.inbox with
  | [] => False
  | .reset :: _ => True
  | .commandCut _ :: _ => True
  | .command M :: rest =>
    ∃ i t, decode M = .ok i ∧ i.op ∈ [Op.config, Op.clear, Op.load] ∧ CompletesOk i { s with inbox := rest } t

/-- A run, of any length, none of whose steps takes bits away (R118: "no `CLEAR`, `CONFIG` or `LOAD` completed with `OK` since"). -/
inductive KeepsBits : State → State → Prop where
  | here (s : State) : KeepsBits s s
  | after {s t u : State} : KeepsBits s t → ¬ t.NextTakesBits → step t = .next u → KeepsBits s u

/-- The OR over the indices whose byte is `a` of their masks, `0x00` over none (R112). -/
def orOfMasks (idxs : List Nat) (a : Nat) : Byte :=
  (idxs.filter fun i => byteIndex i = a).foldl (fun v i => v ||| bitMask i) 0x00

/-- Several commands one after another, each on the state the one before it left. -/
def execSeq : List Instr → State → Result
  | [], s => .next s
  | i :: rest, s =>
    match exec i s with
    | .next t => execSeq rest t
    | .fault r => .fault r
    | .refused r => .refused r

end Sys2Proof.Machine
end

