-- ==== Sys2Proof/Certificates/Slice0/Obligations.lean ====
section
/-! DEFINITION. The statements for the provers. Each formalises rules of spec/ and names them. A response is written out as its bytes where it
is short: status, `LE_6(rlen)`, echo, payload (R52). -/

open Sys2Proof Sys2Proof.Machine

/-! ### Parameters, reset, steps -/

/-- R5, R6, R7: the ranges of the three capacities, for every engine. -/
def Obligations.CapacitiesInRange : Prop :=
  ∀ c : Config, (1 ≤ c.maxBits ∧ c.maxBits ≤ 2 ^ 48 - 1) ∧ c.kMax.toNat ≤ 65535 ∧ c.itemMax.toNat ≤ 2 ^ 48 - 1

/-- R23, R200: after reset `VALID = 0`, no command is in execution and no response pending. The values of the other registers are the
model's own (log 4) and are not stated here. -/
def Obligations.ResetLeavesEngineUnconfigured : Prop :=
  State.reset.valid = false ∧ State.reset.inbox = [] ∧ State.reset.out = []

/-- R200, R201 on the model's events (log 1, log 11): a reset, also one that cuts a command, clears `VALID`, emits no response and
leaves the host's later messages alone. -/
def Obligations.ResetEventClearsValid : Prop :=
  ∀ (s : State) (e : HostEvent) (rest : List HostEvent),
    s.inbox = e :: rest → (e = .reset ∨ ∃ M, e = .commandCut M) →
    ∃ t, step s = .next t ∧ t.valid = false ∧ t.inbox = rest ∧ t.out = s.out

/-- R200 "waits for a command message" (log 3): with nothing to do a step changes nothing. -/
def Obligations.IdleEngineWaits : Prop :=
  ∀ s : State, s.inbox = [] → step s = .next s

/-- R50, R54 step 8: a step runs the decoded command on the state with its message taken. -/
def Obligations.StepRunsDecodedCommand : Prop :=
  ∀ (s : State) (M : Message) (rest : List HostEvent) (i : Instr),
    s.inbox = .command M :: rest → decode M = .ok i → step s = exec i { s with inbox := rest }

/-- R209, R211, R203: from any state, as many steps as the host has events end with nothing left to do, and emit exactly one response for
each command message that was not cut by reset. That a command cut by reset emits none is the model's choice (log 11): R201 and V3 leave it open and
say that a model should treat the response as absent. -/
def Obligations.EveryRunEndsAndAnswers : Prop :=
  ∀ s : State, ∃ t : State,
    Host.Core.run Sys2Proof.core s.inbox.length s = .next t ∧ t.inbox = [] ∧
    t.out.length = s.out.length + s.inbox.countP HostEvent.answered

/-- R50, R52, R170: a command message is answered by exactly one response message, whose length field is true, whose status is one of the
ten codes, whose echo is the first byte of the message (`0x00` of the empty one), and whose payload is empty unless the status is `0x00`. -/
def Obligations.OneFramedResponsePerCommand : Prop :=
  ∀ (s : State) (M : Message) (rest : List HostEvent), s.inbox = .command M :: rest →
    ∃ t P, step s = .next t ∧ t.inbox = rest ∧ t.out = s.out ++ [P] ∧
      P.length = 8 + leValue (slice P 1 6) ∧ (P.getD 0 0).toNat ≤ 9 ∧ P.getD 7 0 = M.getD 0 0 ∧
      (P.getD 0 0 ≠ 0 → P.length = 8)

/-- R171: whatever the message and the state, a response with a non-zero status is the code, six zero bytes and the echo, and nothing but the
emission of that response has happened: the five items of R10 are as before. -/
def Obligations.FaultChangesNothing : Prop :=
  ∀ (s : State) (M : Message) (rest : List HostEvent), s.inbox = .command M :: rest →
    ∃ t P, step s = .next t ∧ t.out = s.out ++ [P] ∧
      (P.getD 0 0 ≠ 0 →
        P = [P.getD 0 0, 0, 0, 0, 0, 0, 0, M.getD 0 0] ∧
        t.valid = s.valid ∧ t.bitcount = s.bitcount ∧ t.k = s.k ∧ t.seeds = s.seeds ∧ t.buf = s.buf ∧ t.inbox = rest)

/-- R11, R200: `VALID` goes from 1 to 0 only by reset, and from 0 to 1 only by a `CONFIG` or `LOAD` that is answered `OK`; and each of these
two, answered `OK`, leaves it 1. -/
def Obligations.ValidChangesOnlySo : Prop :=
  (∀ s t : State, step s = .next t → s.valid = true → t.valid = false →
    ∃ e rest, s.inbox = e :: rest ∧ (e = .reset ∨ ∃ M, e = .commandCut M)) ∧
  (∀ s t : State, step s = .next t → s.valid = false → t.valid = true →
    ∃ M rest i, s.inbox = .command M :: rest ∧ decode M = .ok i ∧ (i.op = .config ∨ i.op = .load) ∧
      CompletesOk i { s with inbox := rest } t) ∧
  (∀ (i : Instr) (s t : State), (i.op = .config ∨ i.op = .load) → CompletesOk i s t → t.valid = true)

/-! ### Encoding -/

/-- R51, R55 to R63, on messages the spec writes out byte by byte (spec/40_construct.md R85, spec/41_bit_storage.md R97,
spec/43_insert_query.md R122, spec/44_clear.md R129, spec/45_serialization.md R144, spec/95_test_vectors.md section 3.3). -/
def Obligations.SpecMessagesDecode : Prop :=
  decode [0x01, 0x10, 0, 0, 0, 0, 0, 0, 0x14, 0, 0, 0, 0, 0, 0x02, 0, 0x01, 0, 0, 0, 0, 0, 0, 0x80] =
    .ok (.config 20 2 [0x00000001, 0x80000000]) ∧
  decode [0x02, 0x06, 0, 0, 0, 0, 0, 0, 0x13, 0, 0, 0, 0, 0] = .ok (.setbit 19) ∧
  decode [0x03, 0x06, 0, 0, 0, 0, 0, 0, 0x13, 0, 0, 0, 0, 0] = .ok (.getbit 19) ∧
  decode [0x04, 0x02, 0, 0, 0, 0, 0, 0, 0x62, 0x62] = .ok (.add [0x62, 0x62]) ∧
  decode [0x05, 0x1B, 0, 0, 0, 0, 0, 0, 0x03, 0, 0, 0, 0, 0, 0x01, 0, 0, 0, 0, 0, 0x61,
      0x02, 0, 0, 0, 0, 0, 0x62, 0x63, 0, 0, 0, 0, 0, 0] = .ok (.addv [[0x61], [0x62, 0x63], []]) ∧
  decode [0x06, 0x02, 0, 0, 0, 0, 0, 0, 0x62, 0x62] = .ok (.has [0x62, 0x62]) ∧
  decode [0x07, 0, 0, 0, 0, 0, 0, 0] = .ok .clear ∧
  decode [0x08, 0, 0, 0, 0, 0, 0, 0] = .ok .serialize ∧
  decode [0x09, 0x09, 0, 0, 0, 0, 0, 0, 0x01, 0x01, 0, 0, 0, 0, 0, 0, 0] = .ok (.load [0x01, 0x01, 0, 0, 0, 0, 0, 0, 0])

/-- Decode of encode is the command, for every well-formed command with every operand (R51, R55 to R63). -/
def Obligations.DecodeOfEncode : Prop :=
  ∀ i : Instr, i.wellFormed = true → decode (encode i) = .ok i

/-- Each command has one message only: what decodes is well formed and is the encoding of what it decodes to (R51, R54, R65). -/
def Obligations.EncodeOfDecode : Prop :=
  ∀ (M : Message) (i : Instr), decode M = .ok i → i.wellFormed = true ∧ encode i = M

/-- R54, step by step, on a step of the machine: the first failing step decides the answer, and a message that fails none is executed. The
payload parse of step 7 is `decodePayload`; what it reads is said by R55 to R63 and the other statements of this section. -/
def Obligations.DecodeStepsInOrder : Prop :=
  ∀ (s : State) (M : Message) (rest : List HostEvent), s.inbox = .command M :: rest →
    let before : State := { s with inbox := rest }
    let answeredWith : Byte → Prop := fun st => step s = .next (before.emit [st, 0, 0, 0, 0, 0, 0, M.getD 0 0])
    (M.length < 8 → answeredWith 0x02) ∧
    (8 ≤ M.length → M.length ≠ 8 + leValue (slice M 1 6) → answeredWith 0x02) ∧
    (8 ≤ M.length → M.length = 8 + leValue (slice M 1 6) → (M.getD 0 0 = 0x00 ∨ 0x0A ≤ (M.getD 0 0).toNat) →
      answeredWith 0x01) ∧
    (∀ op : Op, 8 ≤ M.length → M.length = 8 + leValue (slice M 1 6) → M.getD 0 0 = op.byte → M.getD 7 0 ≠ 0x00 →
      answeredWith 0x02) ∧
    (∀ op : Op, 8 ≤ M.length → M.length = 8 + leValue (slice M 1 6) → M.getD 0 0 = op.byte → M.getD 7 0 = 0x00 →
      decodePayload op (M.drop 8) = none → answeredWith 0x02) ∧
    (∀ (op : Op) (i : Instr), 8 ≤ M.length → M.length = 8 + leValue (slice M 1 6) → M.getD 0 0 = op.byte →
      M.getD 7 0 = 0x00 → decodePayload op (M.drop 8) = some i → step s = exec i before)

/-- R173 and R174: a message is rejected as `E_FORMAT` exactly for the causes R173 lists, and as `E_OPCODE` exactly when it is framed
right and its opcode byte is `0x00` or `0x0A .. 0xFF`. -/
def Obligations.RejectionCauses : Prop :=
  ∀ M : Message,
    let opcode := (M.getD 0 0).toNat
    let p := M.drop 8
    let shapeWrong : Prop :=
      (opcode = 1 ∧ (p.length < 8 ∨ p.length ≠ 8 + 4 * leValue (slice p 6 2))) ∨
      ((opcode = 2 ∨ opcode = 3) ∧ p.length ≠ 6) ∨
      ((opcode = 7 ∨ opcode = 8) ∧ p.length ≠ 0) ∨
      (opcode = 5 ∧ (p.length < 6 ∨ itemsOfBytes (leValue (p.take 6)) (p.drop 6) = none))
    ((∃ e, decode M = .error e ∧ e.status = .format) ↔
      M.length < 8 ∨ M.length ≠ 8 + leValue (slice M 1 6) ∨
      (1 ≤ opcode ∧ opcode ≤ 9 ∧ (M.getD 7 0 ≠ 0x00 ∨ shapeWrong))) ∧
    ((∃ e, decode M = .error e ∧ e.status = .opcode) ↔
      8 ≤ M.length ∧ M.length = 8 + leValue (slice M 1 6) ∧ (opcode = 0 ∨ 10 ≤ opcode))

/-- R55: `CONFIG` parses exactly when `plen >= 8` and `plen = 8 + 4k`, and its operands are `m`, `k` and each `s_j` read little-endian from
their slices of the payload. -/
def Obligations.ConfigOperandAssembly : Prop :=
  ∀ p : Message,
    ((∃ i, decodePayload .config p = some i) ↔ 8 ≤ p.length ∧ p.length = 8 + 4 * leValue (slice p 6 2)) ∧
    ∀ i, decodePayload .config p = some i →
      ∃ m k seeds, i = .config m k seeds ∧ m.toNat = leValue (slice p 0 6) ∧ k.toNat = leValue (slice p 6 2) ∧
        seeds.length = k.toNat ∧
        ∀ j, j < k.toNat → seeds.getD j 0 = BitVec.ofNat 32 (leValue (slice p (8 + 4 * j) 4))

/-- R59: an `ADDV` payload parses into the items `x_0 .. x_(n-1)` exactly when it is `LE_6(n)` and their `n` records, each with the item's
length in 6 bytes before it, and nothing after them; in no other way. -/
def Obligations.AddvOperandAssembly : Prop :=
  ∀ (p : Message) (items : List Message),
    decodePayload .addv p = some (.addv items) ↔
      6 ≤ p.length ∧ items.length = leValue (slice p 0 6) ∧ (∀ x ∈ items, x.length < 2 ^ 48) ∧
        p.drop 6 = items.flatMap fun x => leBytes 6 x.length ++ x

/-- R56, R57, R58, R60, R61, R62, R63: the operand of every other command. An index is the six payload bytes read little-endian; an item and
an image are the payload itself, of any length; `CLEAR` and `SERIALIZE` have no payload. -/
def Obligations.OperandAssemblyOfOtherCommands : Prop :=
  ∀ p : Message,
    (∀ i : Index, decodePayload .setbit p = some (.setbit i) ↔ p.length = 6 ∧ i.toNat = leValue p) ∧
    (∀ i : Index, decodePayload .getbit p = some (.getbit i) ↔ p.length = 6 ∧ i.toNat = leValue p) ∧
    decodePayload .add p = some (.add p) ∧
    decodePayload .has p = some (.has p) ∧
    decodePayload .load p = some (.load p) ∧
    (decodePayload .clear p = some .clear ↔ p.length = 0) ∧
    (decodePayload .serialize p = some .serialize ↔ p.length = 0)

/-! ### The invariant -/

/-- The invariant of spec/95_test_vectors.md P4 (R12, R14, R15, R16) holds after reset. -/
def Obligations.InvariantAtReset : Prop := State.reset.Inv

/-- Every step keeps the invariant, from every state that has it. -/
def Obligations.StepKeepsInvariant : Prop :=
  ∀ s t : State, s.Inv → step s = .next t → t.Inv

/-! ### Frames and whole-machine rules -/

/-- R17, R10: no command but `CONFIG` and `LOAD` changes `VALID`, `BITCOUNT`, `K` or `SEED`; `GETBIT`, `HAS` and `SERIALIZE` write nothing,
not one byte of `BUF`; no command touches the host's next events, and each emits one response. -/
def Obligations.OnlyConfigAndLoadReconfigure : Prop :=
  ∀ (i : Instr) (s t : State), exec i s = .next t →
    t.inbox = s.inbox ∧ (∃ P, t.out = s.out ++ [P]) ∧
    (i.op ≠ .config → i.op ≠ .load →
      t.valid = s.valid ∧ t.bitcount = s.bitcount ∧ t.k = s.k ∧ t.seeds = s.seeds) ∧
    (i.op = .getbit ∨ i.op = .has ∨ i.op = .serialize → t.buf = s.buf)

/-- R175: with `VALID = 0` each of the seven commands that need a Filter is answered `E_NOT_CONFIGURED` and changes nothing; `CONFIG` and
`LOAD` are never answered so. -/
def Obligations.UnconfiguredEngineFaults : Prop :=
  (∀ (i : Instr) (s : State), i.op ≠ .config → i.op ≠ .load → s.valid = false →
    exec i s = .next (s.emit [0x03, 0, 0, 0, 0, 0, 0, i.op.byte])) ∧
  (∀ (i : Instr) (s t : State), (i.op = .config ∨ i.op = .load) → exec i s = .next t →
    t.out ≠ s.out ++ [[0x03, 0, 0, 0, 0, 0, 0, i.op.byte]])

/-- R182: the statuses each command can be answered with, the decode faults of any message among them. -/
def Obligations.StatusesPerCommand : Prop :=
  (∀ (M : Message) (e : DecodeError), decode M = .error e → e.status = .format ∨ e.status = .opcode) ∧
  ∀ (i : Instr) (s : State), ∃ t st payload,
    exec i s = .next t ∧ t.out = s.out ++ [responseMessage st i.op.byte payload] ∧
    st ∈ (match i.op with
      | .config => [Status.ok, .config, .capacity]
      | .setbit => [.ok, .notConfigured, .range]
      | .getbit => [.ok, .notConfigured, .range]
      | .add => [.ok, .notConfigured, .capacity]
      | .addv => [.ok, .notConfigured, .capacity]
      | .has => [.ok, .notConfigured, .capacity]
      | .clear => [.ok, .notConfigured]
      | .serialize => [.ok, .notConfigured, .seedOverflow]
      | .load => [.ok, .version, .image, .capacity])

/-- R64: what the response payload is, for every command and status. -/
def Obligations.ResponsePayloads : Prop :=
  ∀ (i : Instr) (s t : State) (st : Status) (payload : Message),
    exec i s = .next t → t.out = s.out ++ [responseMessage st i.op.byte payload] →
    (st ≠ .ok → payload = []) ∧
    (st = .ok →
      (i.op = .getbit ∨ i.op = .has → payload = [0x01] ∨ payload = [0x00]) ∧
      (i.op = .serialize → payload.length = 8 + 4 * s.k.toNat + ceil8 s.bitcount.toNat) ∧
      (i.op ≠ .getbit → i.op ≠ .has → i.op ≠ .serialize → payload = []))

/-- R83, R140: `CONFIG` and `LOAD`, where they succeed, replace the Filter whole: the state they leave does not depend on the engine's state
before. -/
def Obligations.ConfigAndLoadReplaceFilterWhole : Prop :=
  ∀ (i : Instr) (s s' t : State), (i.op = .config ∨ i.op = .load) → s'.inbox = s.inbox → s'.out = s.out →
    CompletesOk i s t → exec i s' = .next t

/-- R35, command by command, `ceil8(BITCOUNT)` being the end of the live buffer. Writes: a command that keeps the Filter leaves every byte at or
beyond it as it was; `CONFIG` and `LOAD` answered `OK` hold no byte there (the model's choice, log 7: R16 says those bytes are not state). Reads: an
index that `SETBIT` or `GETBIT` is answered `OK` for has its byte inside; so has every lane, with `BITCOUNT >= 1` (R102); and nothing any command
answers or leaves below the end, `SERIALIZE` among them, depends on a byte at or beyond it. -/
def Obligations.NoAccessOutsideBuffer : Prop :=
  (∀ (i : Instr) (s t : State) (a : Nat), (s.valid = true → s.buf.wf = true ∧ 1 ≤ s.bitcount.toNat) → i.op ≠ .config → i.op ≠ .load →
    exec i s = .next t → ceil8 s.bitcount.toNat ≤ a → t.buf.read a = s.buf.read a) ∧
  (∀ (i : Instr) (s t : State), (i.op = .config ∨ i.op = .load) → CompletesOk i s t →
    ∀ c ∈ t.buf, c.1 < ceil8 t.bitcount.toNat) ∧
  (∀ (i : Index) (s t : State), (CompletesOk (.setbit i) s t ∨ CompletesOk (.getbit i) s t) →
    i.toNat < s.bitcount.toNat ∧ byteIndex i.toNat < ceil8 s.bitcount.toNat) ∧
  (∀ (c : Config) (s : State) (x : Message) (i : Nat), 1 ≤ s.bitcount.toNat → i ∈ lanes c s x →
    byteIndex i < ceil8 s.bitcount.toNat) ∧
  (∀ (i : Instr) (s : State) (mem : Memory),
    (s.valid = true → s.buf.wf = true ∧ mem.wf = true ∧ 1 ≤ s.bitcount.toNat) →
    (∀ a, a < ceil8 s.bitcount.toNat → mem.read a = s.buf.read a) →
    ∃ t mem', exec i s = .next t ∧ exec i { s with buf := mem } = .next { t with buf := mem' } ∧
      ∀ a, a < ceil8 t.bitcount.toNat → mem'.read a = t.buf.read a)

/-- R24, R137: an engine reads and writes its state only through `VALID` and the Filter value. Two machines that differ in nothing else a
rule can see stay so, step by step: same responses, equal engines. -/
def Obligations.EqualFiltersAnswerAlike : Prop :=
  ∀ s t : State,
    (s.valid = true → s.buf.wf = true ∧ t.buf.wf = true ∧ 1 ≤ s.bitcount.toNat) → s.Indistinguishable t →
    ∃ s' t', step s = .next s' ∧ step t = .next t' ∧ s'.Indistinguishable t'

/-- R23: after reset `VALID = 0`, and no rule can observe the unspecified values: whatever the registers and the memory hold, every run answers as
the run from the model's reset state does. So nothing rests on the values of log 4. -/
def Obligations.UnspecifiedResetValuesUnobservable : Prop :=
  State.reset.valid = false ∧
  ∀ (n : Nat) (events : List HostEvent) (m : Index) (k : Count) (seeds : List Seed) (buf : Memory),
    ∃ s t : State,
      Host.Core.run Sys2Proof.core n { State.reset with inbox := events } = .next s ∧
      Host.Core.run Sys2Proof.core n
        { State.reset with inbox := events, bitcount := m, k := k, seeds := seeds, buf := buf } = .next t ∧
      s.out = t.out ∧ s.SameEngine t

/-! ### CONFIG -/

/-- R82, on an engine of any capacities: the three checks in their order, each answered before any write; then the new Filter value, every
byte of its buffer zero, `VALID = 1`. The command `CONFIG` is this on the engine of the model. -/
def Obligations.ConfigChecksAndEffect : Prop :=
  ∀ (c : Config) (m : Index) (k : Count) (seeds : List Seed) (s : State), seeds.length = k.toNat →
    (m = 0 → configOn c m k seeds s = .next (s.emit [0x04, 0, 0, 0, 0, 0, 0, 0x01])) ∧
    (m ≠ 0 → c.maxBits < m.toNat → configOn c m k seeds s = .next (s.emit [0x05, 0, 0, 0, 0, 0, 0, 0x01])) ∧
    (m ≠ 0 → m.toNat ≤ c.maxBits → c.kMax.toNat < k.toNat →
      configOn c m k seeds s = .next (s.emit [0x05, 0, 0, 0, 0, 0, 0, 0x01])) ∧
    (m ≠ 0 → m.toNat ≤ c.maxBits → k.toNat ≤ c.kMax.toNat →
      ∃ t, configOn c m k seeds s = .next t ∧ t.valid = true ∧ t.k = k ∧
        t.filter = ⟨m, seeds, List.replicate (ceil8 m.toNat) 0x00⟩ ∧ (∀ a, a < ceil8 m.toNat → t.buf.read a = 0x00) ∧
        t.inbox = s.inbox ∧ t.out = s.out ++ [[0x00, 0, 0, 0, 0, 0, 0, 0x01]]) ∧
    exec (.config m k seeds) s = configOn Config.engine m k seeds s

/-- R82, R84: `CONFIG` completes, in any state, configured or not, with any seeds, for every bit count and seed count within capacity. -/
def Obligations.ConfigCompletes : Prop :=
  ∀ (m : Index) (k : Count) (seeds : List Seed) (s : State), seeds.length = k.toNat →
    1 ≤ m.toNat → m.toNat ≤ Config.engine.maxBits → k.toNat ≤ Config.engine.kMax.toNat →
    ∃ t, exec (.config m k seeds) s = .next t ∧ t.valid = true ∧ t.k = k ∧
      t.filter = ⟨m, seeds, List.replicate (ceil8 m.toNat) 0x00⟩ ∧ t.inbox = s.inbox ∧
      t.out = s.out ++ [[0x00, 0, 0, 0, 0, 0, 0, 0x01]]

/-! ### The memory, the mapper, SETBIT, GETBIT -/

/-- R33 on the model's memory: a write gives the byte written and leaves every other byte alone; an OR-write is a read and a write of the same byte;
both keep the canonical form; and (the model's own, log 6) two memories in canonical form that read alike everywhere are one. -/
def Obligations.MemoryAccesses : Prop :=
  ∀ (mem mem' : Memory) (a b : Nat) (v : Byte), mem.wf = true → mem'.wf = true →
    (mem.write a v).wf = true ∧ (mem.orWrite a v).wf = true ∧
    (mem.write a v).read a = v ∧ (mem.orWrite a v).read a = mem.read a ||| v ∧
    (b ≠ a → (mem.write a v).read b = mem.read b ∧ (mem.orWrite a v).read b = mem.read b) ∧
    ((∀ c, mem.read c = mem'.read c) → mem = mem')

/-- R90: byte index, bit offset and mask of every index, the value of a bit, and the bijection with its inverse. -/
def Obligations.MapperIsDivisionByEight : Prop :=
  (∀ i : Nat, byteIndex i = i >>> 3 ∧ byteIndex i = i / 8 ∧ bitOffset i = i &&& 7 ∧ bitOffset i = i % 8 ∧
    bitMask i = 1#8 <<< (i &&& 7)) ∧
  (∀ (i : Nat) (m : Index), i < m.toNat → byteIndex i < ceil8 m.toNat ∧ byteIndex i < 2 ^ 45) ∧
  (∀ (mem : Memory) (i : Nat),
    (mem.bit i = true ↔ (mem.read (i >>> 3) >>> (i &&& 7)) &&& 1#8 = 1#8) ∧
    (mem.bit i = true ↔ mem.read (i >>> 3) &&& bitMask i ≠ 0)) ∧
  (∀ i : Nat, bitOffset i < 8 ∧ 8 * byteIndex i + bitOffset i = i) ∧
  (∀ a p : Nat, p < 8 → byteIndex (8 * a + p) = a ∧ bitOffset (8 * a + p) = p)

/-- R92: `SETBIT i`. Its two faults in order; else it completes: the addressed byte becomes itself OR the mask, every other byte, register
and flag is unchanged, and the response is `OK` with an empty payload. -/
def Obligations.SetbitEffect : Prop :=
  ∀ (i : Index) (s : State), s.buf.wf = true →
    (s.valid = false → exec (.setbit i) s = .next (s.emit [0x03, 0, 0, 0, 0, 0, 0, 0x02])) ∧
    (s.valid = true → s.bitcount.toNat ≤ i.toNat →
      exec (.setbit i) s = .next (s.emit [0x06, 0, 0, 0, 0, 0, 0, 0x02])) ∧
    (s.valid = true → i.toNat < s.bitcount.toNat →
      ∃ t, exec (.setbit i) s = .next t ∧
        t = { s with buf := t.buf, out := s.out ++ [[0x00, 0, 0, 0, 0, 0, 0, 0x02]] } ∧
        t.buf.read (byteIndex i.toNat) = s.buf.read (byteIndex i.toNat) ||| (1#8 <<< bitOffset i.toNat) ∧
        ∀ a, a ≠ byteIndex i.toNat → t.buf.read a = s.buf.read a)

/-- R94: `GETBIT i`. Its two faults in order; else it completes with one byte, `0x01` where the bit is 1 and `0x00` where it is 0, and
writes nothing. -/
def Obligations.GetbitAnswer : Prop :=
  ∀ (i : Index) (s : State),
    (s.valid = false → exec (.getbit i) s = .next (s.emit [0x03, 0, 0, 0, 0, 0, 0, 0x03])) ∧
    (s.valid = true → s.bitcount.toNat ≤ i.toNat →
      exec (.getbit i) s = .next (s.emit [0x06, 0, 0, 0, 0, 0, 0, 0x03])) ∧
    (s.valid = true → i.toNat < s.bitcount.toNat →
      exec (.getbit i) s = .next (s.emit [0x00, 1, 0, 0, 0, 0, 0, 0x03,
        if s.buf.read (byteIndex i.toNat) &&& (1#8 <<< bitOffset i.toNat) ≠ 0 then 0x01 else 0x00]))

/-- R95, the bit round-trip law over commands: (a) after `CONFIG` or `CLEAR` every bit reads 0; (b) after `SETBIT i` bit `i` reads 1, and
goes on reading 1 along any run that takes no bits away; (c) `SETBIT j` does not change the answer for another bit `i`. -/
def Obligations.BitRoundTrip : Prop :=
  (∀ (j : Instr) (s t : State) (i : Index), (j.op = .config ∨ j.op = .clear) → CompletesOk j s t →
    i.toNat < t.bitcount.toNat → exec (.getbit i) t = .next (t.emit [0x00, 1, 0, 0, 0, 0, 0, 0x03, 0x00])) ∧
  (∀ (i : Index) (s t u : State), s.buf.wf = true → CompletesOk (.setbit i) s t → KeepsBits t u →
    exec (.getbit i) u = .next (u.emit [0x00, 1, 0, 0, 0, 0, 0, 0x03, 0x01])) ∧
  (∀ (i j : Index) (s t : State) (b : Byte), s.buf.wf = true → i ≠ j → i.toNat < s.bitcount.toNat →
    CompletesOk (.setbit j) s t →
    exec (.getbit i) s = .next (s.emit [0x00, 1, 0, 0, 0, 0, 0, 0x03, b]) →
    exec (.getbit i) t = .next (t.emit [0x00, 1, 0, 0, 0, 0, 0, 0x03, b]))

/-! ### Lanes, ADD, ADDV, HAS -/

/-- R101, R102, R103: `Lanes(x)` has one index for each seed, in order, the exact remainder of the unsigned hash by `BITCOUNT`, below
`BITCOUNT`; where `BITCOUNT` is a power of two, the low bits of the hash. -/
def Obligations.LanesAreHashRemainders : Prop :=
  ∀ (c : Config) (s : State) (x : Message), 1 ≤ s.bitcount.toNat →
    (lanes c s x).length = s.k.toNat ∧
    ∀ j, j < s.k.toNat →
      (lanes c s x).getD j 0 = (c.hash64 x (s.seed j)).toNat % s.bitcount.toNat ∧
      (lanes c s x).getD j 0 < s.bitcount.toNat ∧
      ∀ p, s.bitcount.toNat = 2 ^ p → (lanes c s x).getD j 0 = (c.hash64 x (s.seed j)).toNat &&& (s.bitcount.toNat - 1)

/-- R111, R112: `ADD x`. Its two faults in order; else it completes: every byte becomes itself OR the masks of the lanes that address it; on the
bit array, bit `i` after is bit `i` before OR (`i` is a lane index); all else is unchanged and the response is `OK` with an empty payload. -/
def Obligations.AddEffect : Prop :=
  ∀ (x : Message) (s : State),
    (s.valid = false → exec (.add x) s = .next (s.emit [0x03, 0, 0, 0, 0, 0, 0, 0x04])) ∧
    (s.valid = true → Config.engine.itemMax.toNat < x.length →
      exec (.add x) s = .next (s.emit [0x05, 0, 0, 0, 0, 0, 0, 0x04])) ∧
    (s.buf.wf = true → s.valid = true → x.length ≤ Config.engine.itemMax.toNat →
      let idxs := s.liveSeeds.map fun d => (Config.engine.hash64 x d).toNat % s.bitcount.toNat
      ∃ t, exec (.add x) s = .next t ∧
        t = { s with buf := t.buf, out := s.out ++ [[0x00, 0, 0, 0, 0, 0, 0, 0x04]] } ∧
        (∀ a, t.buf.read a = s.buf.read a ||| orOfMasks idxs a) ∧
        (∀ i, t.buf.bit i = (s.buf.bit i || decide (i ∈ idxs))))

/-- R38, R112, R116: the order of the lanes is not observable, in the memory an insertion leaves or in the answer of a test. -/
def Obligations.LaneOrderUnobservable : Prop :=
  ∀ (mem : Memory) (idxs idxs' : List Nat), mem.wf = true → idxs.Perm idxs' →
    mem.setBits idxs = mem.setBits idxs' ∧ mem.allBits idxs = mem.allBits idxs'

/-- R113: adding an item twice leaves the state of adding it once; two items leave the same state in either order; and no bit that is 1
becomes 0 by any command but `CLEAR`, `CONFIG` and `LOAD`. -/
def Obligations.InsertionIdempotentCommutingMonotone : Prop :=
  (∀ (x : Message) (s t : State), s.buf.wf = true → CompletesOk (.add x) s t →
    exec (.add x) t = .next (t.emit [0x00, 0, 0, 0, 0, 0, 0, 0x04])) ∧
  (∀ (x y : Message) (s : State), s.buf.wf = true → s.valid = true →
    x.length ≤ Config.engine.itemMax.toNat → y.length ≤ Config.engine.itemMax.toNat →
    ∃ t, execSeq [.add x, .add y] s = .next t ∧ execSeq [.add y, .add x] s = .next t) ∧
  (∀ (i : Instr) (s t : State) (n : Nat), s.buf.wf = true → exec i s = .next t →
    s.buf.bit n = true → t.buf.bit n = false → i.op = .clear ∨ i.op = .config ∨ i.op = .load)

/-- R114: `ADDV` on a configured engine with every item within `ITEMMAX` completes with the final state of the `ADD`s one after another, and
one `OK` response of its own; with an item too long it is answered `E_CAPACITY` and adds none; unconfigured, `E_NOT_CONFIGURED`; and a message whose
payload does not parse is answered `E_FORMAT` before all of these. -/
def Obligations.AddvIsAddInOrder : Prop :=
  (∀ (s : State) (M : Message) (rest : List HostEvent), s.inbox = .command M :: rest → 8 ≤ M.length →
    M.length = 8 + leValue (slice M 1 6) → M.getD 0 0 = 0x05 → M.getD 7 0 = 0x00 → decodePayload .addv (M.drop 8) = none →
    step s = .next (({ s with inbox := rest } : State).emit [0x02, 0, 0, 0, 0, 0, 0, 0x05])) ∧
  ∀ (items : List Message) (s : State),
    (s.valid = false → exec (.addv items) s = .next (s.emit [0x03, 0, 0, 0, 0, 0, 0, 0x05])) ∧
    (s.valid = true → (∃ x ∈ items, Config.engine.itemMax.toNat < x.length) →
      exec (.addv items) s = .next (s.emit [0x05, 0, 0, 0, 0, 0, 0, 0x05])) ∧
    (s.valid = true → (∀ x ∈ items, x.length ≤ Config.engine.itemMax.toNat) →
      ∃ t u, exec (.addv items) s = .next t ∧ execSeq (items.map .add) s = .next u ∧
        t = { u with out := s.out ++ [[0x00, 0, 0, 0, 0, 0, 0, 0x05]] })

/-- R110, R114: which bits `ADDV` sets: those of every item's lanes, and no others; no other byte, register or flag changes. -/
def Obligations.AddvSetsLanesOfEveryItem : Prop :=
  ∀ (items : List Message) (s : State), s.buf.wf = true → s.valid = true →
    (∀ x ∈ items, x.length ≤ Config.engine.itemMax.toNat) →
    ∃ t, exec (.addv items) s = .next t ∧
      t = { s with buf := t.buf, out := s.out ++ [[0x00, 0, 0, 0, 0, 0, 0, 0x05]] } ∧
      ∀ i, t.buf.bit i = true ↔
        s.buf.bit i = true ∨ ∃ x ∈ items, ∃ d ∈ s.liveSeeds, i = (Config.engine.hash64 x d).toNat % s.bitcount.toNat

/-- R115: `HAS x` on a configured engine completes with one byte, the AND of its lanes' bits, and writes nothing; unconfigured, it is
answered `E_NOT_CONFIGURED`; with an item too long, `E_CAPACITY`. -/
def Obligations.HasAnswer : Prop :=
  ∀ (x : Message) (s : State),
    (s.valid = false → exec (.has x) s = .next (s.emit [0x03, 0, 0, 0, 0, 0, 0, 0x06])) ∧
    (s.valid = true → Config.engine.itemMax.toNat < x.length →
      exec (.has x) s = .next (s.emit [0x05, 0, 0, 0, 0, 0, 0, 0x06])) ∧
    (s.valid = true → x.length ≤ Config.engine.itemMax.toNat →
      exec (.has x) s = .next (s.emit [0x00, 1, 0, 0, 0, 0, 0, 0x06,
        if ∀ d ∈ s.liveSeeds,
            let i := (Config.engine.hash64 x d).toNat % s.bitcount.toNat
            (s.buf.read (byteIndex i) >>> bitOffset i) &&& 1#8 = 1#8
        then 0x01 else 0x00]))

/-- R117: with `K = 0`, `Lanes(x)` is empty, `ADD x` writes nothing and `HAS x` returns true, for every item. -/
def Obligations.NoSeedsMeansEverythingIsMember : Prop :=
  ∀ (x : Message) (s : State), s.valid = true → s.k = 0 → x.length ≤ Config.engine.itemMax.toNat →
    lanes Config.engine s x = [] ∧
    exec (.add x) s = .next (s.emit [0x00, 0, 0, 0, 0, 0, 0, 0x04]) ∧
    exec (.has x) s = .next (s.emit [0x00, 1, 0, 0, 0, 0, 0, 0x06, 0x01])

/-- R118, no false negatives: after an `ADD x`, or an `ADDV` that holds `x`, was answered `OK`, `HAS x` answers true for as long as no
`CLEAR`, `CONFIG` or `LOAD` is answered `OK` and no reset comes, whatever other commands and faults come between; and so it does after a `LOAD` of the
image that a `SERIALIZE` answered in between, whatever the engine held. -/
def Obligations.NoFalseNegatives : Prop :=
  ∀ (x : Message) (s t u : State), s.buf.wf = true →
    (CompletesOk (.add x) s t ∨ ∃ items, x ∈ items ∧ CompletesOk (.addv items) s t) → KeepsBits t u →
    exec (.has x) u = .next (u.emit [0x00, 1, 0, 0, 0, 0, 0, 0x06, 0x01]) ∧
    ∀ (I : Message) (v w : State), exec .serialize u = .next (u.emit (responseMessage .ok 0x08 I)) → CompletesOk (.load I) v w →
      exec (.has x) w = .next (w.emit [0x00, 1, 0, 0, 0, 0, 0, 0x06, 0x01])

/-- R176, on an engine of any capacities: every request that exceeds one is answered `E_CAPACITY` and changes nothing: `CONFIG` and `LOAD` by
`m` or `k`, `ADD`, `ADDV` and `HAS` by an item's length. -/
def Obligations.ExceededCapacityFaults : Prop :=
  ∀ (c : Config) (s : State),
    (∀ m k seeds, m ≠ 0 → (c.maxBits < m.toNat ∨ c.kMax.toNat < k.toNat) →
      configOn c m k seeds s = .next (s.emit [0x05, 0, 0, 0, 0, 0, 0, 0x01])) ∧
    (∀ I : Message, I.getD 0 0 = 0x01 → 8 + 4 * (I.getD 7 0).toNat ≤ I.length → leValue (slice I 1 6) ≠ 0 →
      I.length = 8 + 4 * (I.getD 7 0).toNat + ceil8 (leValue (slice I 1 6)) →
      (c.maxBits < leValue (slice I 1 6) ∨ c.kMax.toNat < (I.getD 7 0).toNat) →
      loadOn c I s = .next (s.emit [0x05, 0, 0, 0, 0, 0, 0, 0x09])) ∧
    (∀ x : Message, s.valid = true → c.itemMax.toNat < x.length →
      addOn c x s = .next (s.emit [0x05, 0, 0, 0, 0, 0, 0, 0x04]) ∧
      hasOn c x s = .next (s.emit [0x05, 0, 0, 0, 0, 0, 0, 0x06])) ∧
    (∀ (items : List Message) (x : Message), s.valid = true → x ∈ items → c.itemMax.toNat < x.length →
      addvOn c items s = .next (s.emit [0x05, 0, 0, 0, 0, 0, 0, 0x05]))

/-! ### CLEAR -/

/-- R125: `CLEAR` on a configured engine completes: the Filter value keeps its bit count and seeds and its buffer is all zero, padding bits
included; nothing outside the buffer changes; unconfigured, it is answered `E_NOT_CONFIGURED`. -/
def Obligations.ClearEffect : Prop :=
  ∀ s : State,
    (s.valid = false → exec .clear s = .next (s.emit [0x03, 0, 0, 0, 0, 0, 0, 0x07])) ∧
    (s.valid = true →
      ∃ t, exec .clear s = .next t ∧
        t = { s with buf := t.buf, out := s.out ++ [[0x00, 0, 0, 0, 0, 0, 0, 0x07]] } ∧
        t.filter = ⟨s.bitcount, s.liveSeeds, List.replicate (ceil8 s.bitcount.toNat) 0x00⟩ ∧
        (∀ a, a < ceil8 s.bitcount.toNat → t.buf.read a = 0x00) ∧
        (∀ a, ceil8 s.bitcount.toNat ≤ a → t.buf.read a = s.buf.read a))

/-- R127: after `CLEAR` every bit reads 0; `HAS` answers false for every item where `K >= 1`, and true for every item where `K = 0`. -/
def Obligations.ClearResetsAnswers : Prop :=
  ∀ s t : State, 1 ≤ s.bitcount.toNat → CompletesOk .clear s t →
    (∀ i : Index, i.toNat < t.bitcount.toNat → exec (.getbit i) t = .next (t.emit [0x00, 1, 0, 0, 0, 0, 0, 0x03, 0x00])) ∧
    (∀ x : Message, x.length ≤ Config.engine.itemMax.toNat → 1 ≤ t.k.toNat →
      exec (.has x) t = .next (t.emit [0x00, 1, 0, 0, 0, 0, 0, 0x06, 0x00])) ∧
    (∀ x : Message, x.length ≤ Config.engine.itemMax.toNat → t.k = 0 →
      exec (.has x) t = .next (t.emit [0x00, 1, 0, 0, 0, 0, 0, 0x06, 0x01]))

/-- R19, the padding bits: 0 after `CONFIG` and `CLEAR`; as the image held them after `LOAD`; never changed by `SETBIT`, `ADD` and `ADDV`; never
read by `GETBIT` and `HAS`; emitted as they are by `SERIALIZE`. -/
def Obligations.PaddingBits : Prop :=
  (∀ (i : Instr) (s t : State) (n : Nat), (i.op = .config ∨ i.op = .clear) → CompletesOk i s t →
    t.bitcount.toNat ≤ n → n < 8 * ceil8 t.bitcount.toNat → t.buf.bit n = false) ∧
  (∀ (I : Message) (s t : State) (n : Nat), CompletesOk (.load I) s t →
    t.bitcount.toNat ≤ n → n < 8 * ceil8 t.bitcount.toNat →
    t.buf.bit n = (I.getD (8 + 4 * (I.getD 7 0).toNat + n / 8) 0).getLsbD (n % 8)) ∧
  (∀ (i : Instr) (s t : State) (n : Nat), s.buf.wf = true → 1 ≤ s.bitcount.toNat →
    (i.op = .setbit ∨ i.op = .add ∨ i.op = .addv) → exec i s = .next t → s.bitcount.toNat ≤ n →
    t.buf.bit n = s.buf.bit n) ∧
  (∀ (i : Instr) (s : State) (mem : Memory), 1 ≤ s.bitcount.toNat → (i.op = .getbit ∨ i.op = .has) →
    (∀ n, n < s.bitcount.toNat → mem.bit n = s.buf.bit n) →
    ∃ P, exec i s = .next (s.emit P) ∧
      exec i { s with buf := mem } = .next (({ s with buf := mem } : State).emit P)) ∧
  (∀ (s : State) (I : Message) (n : Nat), exec .serialize s = .next (s.emit (responseMessage .ok 0x08 I)) →
    s.bitcount.toNat ≤ n → n < 8 * ceil8 s.bitcount.toNat →
    (I.getD (8 + 4 * s.k.toNat + n / 8) 0).getLsbD (n % 8) = s.buf.bit n)

/-! ### SERIALIZE and LOAD -/

/-- R135, R136: `SERIALIZE`. Unconfigured, `E_NOT_CONFIGURED`; with more than 255 seeds, `E_SEED_OVERFLOW` and no image; else it completes
with the image of R130 byte by byte, a response of `8 + 4K + ceil8(BITCOUNT)` payload bytes, and writes nothing. -/
def Obligations.SerializeAnswer : Prop :=
  ∀ s : State,
    (s.valid = false → exec .serialize s = .next (s.emit [0x03, 0, 0, 0, 0, 0, 0, 0x08])) ∧
    (s.valid = true → 255 < s.k.toNat → exec .serialize s = .next (s.emit [0x08, 0, 0, 0, 0, 0, 0, 0x08])) ∧
    (s.valid = true → s.k.toNat ≤ 255 →
      exec .serialize s = .next (s.emit
        ([0x00] ++ leBytes 6 (8 + 4 * s.k.toNat + ceil8 s.bitcount.toNat) ++ [0x08] ++
          ([0x01] ++ leBytes 6 s.bitcount.toNat ++ [BitVec.ofNat 8 s.k.toNat] ++
            (s.liveSeeds.flatMap fun d => leBytes 4 d.toNat) ++
            (List.range (ceil8 s.bitcount.toNat)).map s.buf.read))))

/-- R138, R139, on an engine of any capacities: the eight checks of `LOAD` in their order, each answered on the unchanged state; then the
Filter value read from the image, the buffer copied verbatim, `VALID = 1`. The command `LOAD` is this on the engine of the model. -/
def Obligations.LoadChecksAndEffect : Prop :=
  ∀ (c : Config) (I : Message) (s : State),
    let n := I.length
    let m := leValue (slice I 1 6)
    let k := (I.getD 7 0).toNat
    let answeredWith : Byte → Prop := fun st => loadOn c I s = .next (s.emit [st, 0, 0, 0, 0, 0, 0, 0x09])
    (n = 0 → answeredWith 0x09) ∧
    (n ≠ 0 → I.getD 0 0 ≠ 0x01 → answeredWith 0x07) ∧
    (n ≠ 0 → I.getD 0 0 = 0x01 → n < 8 → answeredWith 0x09) ∧
    (I.getD 0 0 = 0x01 → 8 ≤ n → n < 8 + 4 * k → answeredWith 0x09) ∧
    (I.getD 0 0 = 0x01 → 8 + 4 * k ≤ n → m = 0 → answeredWith 0x09) ∧
    (I.getD 0 0 = 0x01 → 8 + 4 * k ≤ n → m ≠ 0 → n - 8 - 4 * k ≠ ceil8 m → answeredWith 0x09) ∧
    (I.getD 0 0 = 0x01 → 8 + 4 * k ≤ n → m ≠ 0 → n - 8 - 4 * k = ceil8 m → c.maxBits < m → answeredWith 0x05) ∧
    (I.getD 0 0 = 0x01 → 8 + 4 * k ≤ n → m ≠ 0 → n - 8 - 4 * k = ceil8 m → m ≤ c.maxBits → c.kMax.toNat < k →
      answeredWith 0x05) ∧
    (I.getD 0 0 = 0x01 → 8 + 4 * k ≤ n → m ≠ 0 → n - 8 - 4 * k = ceil8 m → m ≤ c.maxBits → k ≤ c.kMax.toNat →
      ∃ t, loadOn c I s = .next t ∧ t.valid = true ∧ t.bitcount.toNat = m ∧ t.k.toNat = k ∧
        (∀ j, j < k → t.seed j = BitVec.ofNat 32 (leValue (slice I (8 + 4 * j) 4))) ∧
        t.liveBuffer = I.drop (8 + 4 * k) ∧ t.inbox = s.inbox ∧ t.out = s.out ++ [[0x00, 0, 0, 0, 0, 0, 0, 0x09]]) ∧
    exec (.load I) s = loadOn Config.engine I s

/-- R138, R140: `LOAD` completes, in any state, configured or not, for every well-formed image within capacity. -/
def Obligations.LoadCompletes : Prop :=
  ∀ (I : Message) (s : State), I.getD 0 0 = 0x01 → leValue (slice I 1 6) ≠ 0 →
    I.length = 8 + 4 * (I.getD 7 0).toNat + ceil8 (leValue (slice I 1 6)) →
    leValue (slice I 1 6) ≤ Config.engine.maxBits → (I.getD 7 0).toNat ≤ Config.engine.kMax.toNat →
    ∃ t, exec (.load I) s = .next t ∧ t.valid = true ∧ t.bitcount.toNat = leValue (slice I 1 6) ∧
      t.k.toNat = (I.getD 7 0).toNat ∧ t.liveBuffer = I.drop (8 + 4 * (I.getD 7 0).toNat) ∧ t.inbox = s.inbox ∧
      t.out = s.out ++ [[0x00, 0, 0, 0, 0, 0, 0, 0x09]]

/-- R142 (a) and (c), the state round trip: a configured engine with at most 255 seeds answers an image; that image loads on any engine whose
capacities it fits, in any state, and the Filter value is the original's in all three components; and on the engine of the model every `GETBIT` and
`HAS` then answers as before. -/
def Obligations.SerializeThenLoadRestoresFilter : Prop :=
  ∀ s : State, s.valid = true → 1 ≤ s.bitcount.toNat → s.k.toNat ≤ 255 →
    ∃ I : Message, exec .serialize s = .next (s.emit (responseMessage .ok 0x08 I)) ∧
      ∀ (c : Config) (t : State), s.bitcount.toNat ≤ c.maxBits → s.k.toNat ≤ c.kMax.toNat →
        ∃ u, loadOn c I t = .next u ∧ u.valid = true ∧ u.filter = s.filter ∧
          u.inbox = t.inbox ∧ u.out = t.out ++ [[0x00, 0, 0, 0, 0, 0, 0, 0x09]] ∧
          ∀ i : Instr, (i.op = .getbit ∨ i.op = .has) →
            ∃ P, exec i s = .next (s.emit P) ∧ exec i u = .next (u.emit P)

/-- R142 (b), the image round trip: an image that loads is what `SERIALIZE` answers next, byte for byte. -/
def Obligations.LoadThenSerializeReturnsImage : Prop :=
  ∀ (I : Message) (s t : State), CompletesOk (.load I) s t →
    exec .serialize t = .next (t.emit (responseMessage .ok 0x08 I))
end

