-- ==== Sys2Proof/Laws/Memory.lean ====
section
/-! SUPPORT. Laws of the byte memory: every operation keeps the canonical form, a read after a write gives the value written, a write
leaves every other byte alone, and canonical memories that read alike are equal. -/

namespace Sys2Proof.Machine.Memory

@[simp] theorem unlistedByte_eq : unlistedByte = 0x00#8 := rfl

@[simp] theorem read_nil (a : Nat) : read [] a = 0x00#8 := rfl

theorem read_listed (b : Nat) (w : Byte) (rest : Memory) (a : Nat) :
    read ((b, w) :: rest) a = if a = b then w else read rest a := rfl

@[simp] theorem wfFrom_nil (lo : Nat) : wfFrom lo [] = true := rfl

theorem wfFrom_listed (lo b : Nat) (w : Byte) (rest : Memory) :
    wfFrom lo ((b, w) :: rest) = true ↔ lo ≤ b ∧ w ≠ 0x00#8 ∧ wfFrom (b + 1) rest = true := by
  rw [wfFrom, Bool.and_eq_true, Bool.and_eq_true, decide_eq_true_iff, decide_eq_true_iff, and_assoc]; rfl

theorem wfFrom_mono {lo lo' : Nat} (h : lo' ≤ lo) {mem : Memory} (hw : wfFrom lo mem = true) : wfFrom lo' mem = true := by
  cases mem with
  | nil => rfl
  | cons c rest =>
    obtain ⟨b, w⟩ := c
    rw [wfFrom_listed] at *
    exact ⟨Nat.le_trans h hw.1, hw.2⟩

/-- Below its lowest address a canonical memory reads as unlisted. -/
theorem read_below {lo a : Nat} {mem : Memory} (hw : wfFrom lo mem = true) (h : a < lo) : read mem a = 0x00#8 := by
  induction mem generalizing lo with
  | nil => rfl
  | cons c rest ih =>
    obtain ⟨b, w⟩ := c
    rw [wfFrom_listed] at hw
    rw [read_listed, if_neg (by omega)]
    exact ih hw.2.2 (by omega)

theorem read_cons (b : Nat) (v : Byte) (mem : Memory) (hw : wfFrom (b + 1) mem = true) (a : Nat) :
    read (cons b v mem) a = if a = b then v else read mem a := by
  unfold cons
  split
  · rename_i hv
    split
    · subst_vars; simpa using read_below hw (Nat.lt_succ_self _)
    · rfl
  · rfl

theorem wfFrom_cons {lo b : Nat} (v : Byte) {mem : Memory} (hl : lo ≤ b) (hw : wfFrom (b + 1) mem = true) :
    wfFrom lo (cons b v mem) = true := by
  unfold cons
  split
  · exact wfFrom_mono (by omega) hw
  · rename_i hv
    rw [wfFrom_listed]
    exact ⟨hl, hv, hw⟩

/-- A write keeps the canonical form. -/
theorem wfFrom_write {lo : Nat} {mem : Memory} (hw : wfFrom lo mem = true) (a : Nat) (ha : lo ≤ a) (v : Byte) :
    wfFrom lo (write mem a v) = true := by
  induction mem generalizing lo with
  | nil => exact wfFrom_cons v ha rfl
  | cons c rest ih =>
    obtain ⟨b, w⟩ := c
    have hc := (wfFrom_listed _ _ _ _).1 hw
    unfold write
    split
    · exact wfFrom_cons v ha ((wfFrom_listed _ _ _ _).2 ⟨by omega, hc.2⟩)
    · split
      · subst_vars; exact wfFrom_cons v ha hc.2.2
      · exact (wfFrom_listed _ _ _ _).2 ⟨hc.1, hc.2.1, ih hc.2.2 (by omega)⟩

@[simp] theorem wf_nil : wf [] = true := rfl

theorem wf_write {mem : Memory} (hw : mem.wf = true) (a : Nat) (v : Byte) : (mem.write a v).wf = true :=
  wfFrom_write hw a (Nat.zero_le a) v

theorem wf_orWrite {mem : Memory} (hw : mem.wf = true) (a : Nat) (v : Byte) : (mem.orWrite a v).wf = true :=
  wf_write hw a _

theorem read_writeFrom {lo : Nat} {mem : Memory} (hw : wfFrom lo mem = true) (b : Nat) (v : Byte) (a : Nat) :
    read (write mem b v) a = if a = b then v else read mem a := by
  induction mem generalizing lo with
  | nil => exact read_cons b v [] rfl a
  | cons c rest ih =>
    obtain ⟨d, w⟩ := c
    have hc := (wfFrom_listed _ _ _ _).1 hw
    unfold write
    split
    · exact read_cons b v _ ((wfFrom_listed _ _ _ _).2 ⟨by omega, hc.2⟩) a
    · split
      · subst_vars
        rw [read_cons _ _ _ hc.2.2, read_listed]
        split <;> rfl
      · rw [read_listed, read_listed, ih hc.2.2]
        split <;> split <;> first | rfl | omega

/-- A read after a write: the value written at its address, the old byte everywhere else. -/
theorem read_write {mem : Memory} (hw : mem.wf = true) (b : Nat) (v : Byte) (a : Nat) :
    (mem.write b v).read a = if a = b then v else mem.read a :=
  read_writeFrom hw b v a

theorem read_orWrite {mem : Memory} (hw : mem.wf = true) (b : Nat) (v : Byte) (a : Nat) :
    (mem.orWrite b v).read a = if a = b then mem.read a ||| v else mem.read a := by
  unfold orWrite
  rw [read_write hw]
  split
  · subst_vars; rfl
  · rfl

/-- Two canonical memories that read alike at every address are equal. -/
theorem ext_wfFrom {lo : Nat} {mem mem' : Memory} (hw : wfFrom lo mem = true) (hw' : wfFrom lo mem' = true)
    (h : ∀ a, mem.read a = mem'.read a) : mem = mem' := by
  induction mem generalizing lo mem' with
  | nil =>
    cases mem' with
    | nil => rfl
    | cons c rest =>
      obtain ⟨b, w⟩ := c
      have := h b
      rw [read_listed, if_pos rfl, read_nil] at this
      exact absurd this.symm ((wfFrom_listed _ _ _ _).1 hw').2.1
  | cons c rest ih =>
    obtain ⟨b, w⟩ := c
    have hc := (wfFrom_listed _ _ _ _).1 hw
    cases mem' with
    | nil =>
      have := h b
      rw [read_listed, if_pos rfl, read_nil] at this
      exact absurd this hc.2.1
    | cons c' rest' =>
      obtain ⟨b', w'⟩ := c'
      have hc' := (wfFrom_listed _ _ _ _).1 hw'
      have hb : b = b' := by
        rcases Nat.lt_trichotomy b b' with hlt | heq | hgt
        · have := h b
          rw [read_listed, if_pos rfl, read_listed, if_neg (by omega), read_below hc'.2.2 (by omega)] at this
          exact absurd this hc.2.1
        · exact heq
        · have := h b'
          rw [read_listed, if_neg (by omega), read_listed, if_pos rfl, read_below hc.2.2 (by omega)] at this
          exact absurd this.symm hc'.2.1
      subst hb
      have hv : w = w' := by simpa [read_listed] using h b
      subst hv
      have hrest : rest = rest' := by
        refine ih hc.2.2 hc'.2.2 fun a => ?_
        by_cases ha : a = b
        · rw [read_below hc.2.2 (by omega), read_below hc'.2.2 (by omega)]
        · simpa [read_listed, ha] using h a
      rw [hrest]

theorem ext {mem mem' : Memory} (hw : mem.wf = true) (hw' : mem'.wf = true) (h : ∀ a, mem.read a = mem'.read a) :
    mem = mem' :=
  ext_wfFrom hw hw' h

theorem wfFrom_zeroBelow {lo : Nat} {mem : Memory} (hw : wfFrom lo mem = true) (n : Nat) :
    wfFrom lo (mem.zeroBelow n) = true := by
  induction mem generalizing lo with
  | nil => rfl
  | cons c rest ih =>
    obtain ⟨b, w⟩ := c
    have hc := (wfFrom_listed _ _ _ _).1 hw
    have hr := ih hc.2.2
    unfold zeroBelow at *
    rw [List.filter_cons]
    split
    · exact (wfFrom_listed _ _ _ _).2 ⟨hc.1, hc.2.1, hr⟩
    · exact wfFrom_mono (by omega) hr

theorem wf_zeroBelow {mem : Memory} (hw : mem.wf = true) (n : Nat) : (mem.zeroBelow n).wf = true :=
  wfFrom_zeroBelow hw n

theorem read_zeroBelow (mem : Memory) (n a : Nat) :
    (mem.zeroBelow n).read a = if a < n then 0x00#8 else mem.read a := by
  induction mem with
  | nil => simp [zeroBelow]
  | cons c rest ih =>
    obtain ⟨b, w⟩ := c
    unfold zeroBelow at *
    rw [List.filter_cons]
    split
    · rename_i hn
      simp only [decide_eq_true_eq] at hn
      rw [read_listed, read_listed, ih]
      split <;> split <;> first | rfl | omega
    · rename_i hn
      simp only [decide_eq_true_eq] at hn
      rw [ih, read_listed]
      split
      · rfl
      · rw [if_neg (by omega)]

theorem wfFrom_ofBytesAt {lo a : Nat} (h : lo ≤ a) (bytes : Message) : wfFrom lo (ofBytesAt a bytes) = true := by
  induction bytes generalizing lo a with
  | nil => rfl
  | cons v bytes ih => exact wfFrom_cons v h (ih (Nat.le_refl _))

theorem wf_ofBytesAt (a : Nat) (bytes : Message) : (ofBytesAt a bytes).wf = true :=
  wfFrom_ofBytesAt (Nat.zero_le a) bytes

/-- A loaded memory reads back the bytes it was loaded with, and as unlisted outside them. -/
theorem read_ofBytesAt (a : Nat) (bytes : Message) (j : Nat) : (ofBytesAt a bytes).read (a + j) = bytes.getD j 0x00#8 := by
  induction bytes generalizing a j with
  | nil => simp [ofBytesAt]
  | cons v bytes ih =>
    rw [ofBytesAt, read_cons _ _ _ (wfFrom_ofBytesAt (Nat.le_refl _) _)]
    cases j with
    | zero => simp
    | succ j =>
      rw [if_neg (by omega), show a + (j + 1) = a + 1 + j by omega, ih]
      simp

/-- A canonical memory lists no byte it reads as unlisted, and every listed byte is read. -/
theorem listed_iff {lo : Nat} {mem : Memory} (hw : wfFrom lo mem = true) (c : Host.Cell) :
    c ∈ mem ↔ mem.read c.1 = c.2 ∧ c.2 ≠ 0x00#8 := by
  induction mem generalizing lo with
  | nil => simp only [List.not_mem_nil, read_nil, false_iff, not_and, not_not]; exact Eq.symm
  | cons d rest ih =>
    obtain ⟨b, w⟩ := d
    obtain ⟨a, v⟩ := c
    have hc := (wfFrom_listed _ _ _ _).1 hw
    rw [List.mem_cons, ih hc.2.2, read_listed]
    by_cases hab : a = b
    · subst hab
      have hz := read_below hc.2.2 (Nat.lt_succ_self a)
      simp only [Prod.mk.injEq, true_and, if_true, hz]
      constructor
      · rintro (rfl | ⟨h1, h2⟩)
        · exact ⟨rfl, hc.2.1⟩
        · exact absurd h1.symm h2
      · rintro ⟨rfl, -⟩; exact .inl rfl
    · simp [hab]

/-- No cell at or above `n` is listed exactly when every byte there reads as unlisted. -/
theorem inside_iff {mem : Memory} (hw : mem.wf = true) (n : Nat) :
    (∀ c ∈ mem, c.1 < n) ↔ ∀ a, n ≤ a → mem.read a = 0x00#8 := by
  constructor
  · intro h a ha
    by_contra hne
    have := h (a, mem.read a) ((listed_iff hw _).2 ⟨rfl, hne⟩)
    simp at this; omega
  · intro h c hc
    by_contra hlt
    have := (listed_iff hw c).1 hc
    exact this.2 (this.1 ▸ h _ (by omega))

@[simp] theorem length_readRange (mem : Memory) (n : Nat) : (mem.readRange n).length = n := by simp [readRange]

theorem getD_readRange (mem : Memory) (n a : Nat) (h : a < n) : (mem.readRange n).getD a 0x00#8 = mem.read a := by
  simp [readRange, h]

theorem readRange_eq_iff (mem mem' : Memory) (n : Nat) :
    mem.readRange n = mem'.readRange n ↔ ∀ a, a < n → mem.read a = mem'.read a := by
  simp [readRange]

/-- Reading back the bytes a memory was loaded with. -/
theorem readRange_ofBytesAt (bytes : Message) : (ofBytesAt 0 bytes).readRange bytes.length = bytes := by
  apply List.ext_getElem (by simp)
  intro a h1 h2
  have := read_ofBytesAt 0 bytes a
  simp only [Nat.zero_add] at this
  simp [readRange, this, h2]

theorem readRange_nil (n : Nat) : readRange [] n = List.replicate n 0x00#8 := by
  simp [readRange, List.eq_replicate_iff]

/-- A loaded memory lists no byte beyond the bytes it was loaded with. -/
theorem inside_ofBytesAt (bytes : Message) : ∀ c ∈ ofBytesAt 0 bytes, c.1 < bytes.length := by
  rw [inside_iff (wf_ofBytesAt _ _)]
  intro a ha
  have := read_ofBytesAt 0 bytes a
  rw [Nat.zero_add] at this
  rw [this]
  simp [List.getD, List.getElem?_eq_none ha]

end Sys2Proof.Machine.Memory
end

