-- ==== Sys2Proof/Laws/Bits.lean ====
section
/-! SUPPORT. Laws of the mapper and of the two accumulators: what one bit reads as after bits were set. -/

namespace Sys2Proof.Machine

theorem bitMask_eq_twoPow (i : Nat) : bitMask i = BitVec.twoPow 8 (i % 8) := rfl

/-- Bit `p` of `mask(i)` is 1 exactly at `p = bitOffset(i)`. -/
theorem getLsbD_bitMask (i p : Nat) : (bitMask i).getLsbD p = decide (p = i % 8) := by
  have h8 : i % 8 < 8 := Nat.mod_lt _ (by decide)
  rw [bitMask_eq_twoPow, BitVec.getLsbD_twoPow]
  by_cases h : p = i % 8
  · subst h; simp [h8]
  · simp [h, show i % 8 ≠ p from fun e => h e.symm]

theorem and_bitMask_ne_zero (v : Byte) (i : Nat) : (v &&& bitMask i != 0) = v.getLsbD (i % 8) := by
  have h8 : i % 8 < 8 := Nat.mod_lt _ (by decide)
  cases hv : v.getLsbD (i % 8) with
  | true =>
    rw [bne_iff_ne]
    intro h
    have := congrArg (fun w => BitVec.getLsbD w (i % 8)) h
    simp [getLsbD_bitMask, hv] at this
  | false =>
    have : v &&& bitMask i = 0 := by
      apply BitVec.eq_of_getLsbD_eq
      intro p hp
      simp only [BitVec.getLsbD_and, getLsbD_bitMask, BitVec.ofNat_eq_ofNat, BitVec.getLsbD_zero, Bool.and_eq_false_iff]
      by_cases h : p = i % 8
      · subst h; exact .inl hv
      · exact .inr (by simpa using h)
    simp [this]

namespace Memory

/-- Bit `i` is bit `bitOffset(i)` of the byte at `byteIndex(i)` (R90). -/
theorem bit_eq_getLsbD (mem : Memory) (i : Nat) : mem.bit i = (mem.read (i / 8)).getLsbD (i % 8) :=
  and_bitMask_ne_zero _ i

theorem wf_setBit {mem : Memory} (hw : mem.wf = true) (i : Nat) : (mem.setBit i).wf = true := wf_orWrite hw _ _

theorem read_setBit {mem : Memory} (hw : mem.wf = true) (i a : Nat) :
    (mem.setBit i).read a = if a = i / 8 then mem.read a ||| bitMask i else mem.read a :=
  read_orWrite hw _ _ a

/-- After setting bit `i`, bit `j` is 1 exactly if it was 1 or is bit `i`. -/
theorem bit_setBit {mem : Memory} (hw : mem.wf = true) (i j : Nat) :
    (mem.setBit i).bit j = (mem.bit j || decide (j = i)) := by
  rw [bit_eq_getLsbD, bit_eq_getLsbD, read_setBit hw]
  split
  · rw [BitVec.getLsbD_or, getLsbD_bitMask]
    congr 1
    exact decide_eq_decide.2 (by omega)
  · have : ¬ j = i := by rintro rfl; contradiction
    simp [this]

@[simp] theorem setBits_nil (mem : Memory) : mem.setBits [] = mem := rfl
@[simp] theorem setBits_cons (mem : Memory) (i : Nat) (idxs : List Nat) :
    mem.setBits (i :: idxs) = (mem.setBit i).setBits idxs := rfl

theorem wf_setBits {mem : Memory} (hw : mem.wf = true) (idxs : List Nat) : (mem.setBits idxs).wf = true := by
  induction idxs generalizing mem with
  | nil => exact hw
  | cons i idxs ih => exact ih (wf_setBit hw i)

/-- The OR accumulator on the bit array: bit `j` after is bit `j` before OR (`j` is among the indices). -/
theorem bit_setBits {mem : Memory} (hw : mem.wf = true) (idxs : List Nat) (j : Nat) :
    (mem.setBits idxs).bit j = (mem.bit j || decide (j ∈ idxs)) := by
  induction idxs generalizing mem with
  | nil => simp
  | cons i idxs ih => rw [setBits_cons, ih (wf_setBit hw i), bit_setBit hw]; simp [Bool.or_assoc]

/-- A byte is its eight bits. -/
theorem read_ext {mem mem' : Memory} {a : Nat} (h : ∀ p < 8, mem.bit (8 * a + p) = mem'.bit (8 * a + p)) :
    mem.read a = mem'.read a := by
  apply BitVec.eq_of_getLsbD_eq
  intro p hp
  have := h p hp
  rw [bit_eq_getLsbD, bit_eq_getLsbD] at this
  rwa [show (8 * a + p) / 8 = a by omega, show (8 * a + p) % 8 = p by omega] at this

/-- Two canonical memories with the same bits are equal. -/
theorem ext_bits {mem mem' : Memory} (hw : mem.wf = true) (hw' : mem'.wf = true) (h : ∀ i, mem.bit i = mem'.bit i) :
    mem = mem' :=
  ext hw hw' fun _ => read_ext fun _ _ => h _

/-- The AND accumulator is the AND of the addressed bits, in whatever order. -/
theorem allBits_eq_all (mem : Memory) (idxs : List Nat) : mem.allBits idxs = idxs.all mem.bit := by
  have : ∀ (r : Bool), idxs.foldl (fun r i => r && mem.bit i) r = (r && idxs.all mem.bit) := by
    induction idxs with
    | nil => simp
    | cons i idxs ih => intro r; simp [ih, Bool.and_assoc]
  simpa [allBits] using this true

theorem allBits_iff (mem : Memory) (idxs : List Nat) : mem.allBits idxs = true ↔ ∀ i ∈ idxs, mem.bit i = true := by
  rw [allBits_eq_all, List.all_eq_true]

/-- No bit outside the first `n` bytes is set by setting bits inside them. -/
theorem inside_setBits {mem : Memory} (hw : mem.wf = true) {n : Nat} (hin : ∀ c ∈ mem, c.1 < n) {idxs : List Nat}
    (hi : ∀ i ∈ idxs, i / 8 < n) : ∀ c ∈ mem.setBits idxs, c.1 < n := by
  rw [inside_iff (wf_setBits hw idxs)]
  rw [inside_iff hw] at hin
  intro a ha
  rw [← hin a ha]
  apply read_ext
  intro p hp
  rw [bit_setBits hw]
  have : 8 * a + p ∉ idxs := fun hm => by have := hi _ hm; omega
  simp [this]

@[simp] theorem bit_nil (i : Nat) : Memory.bit [] i = false := by rw [bit_eq_getLsbD]; simp

/-- A bit depends on its own byte alone. -/
theorem bit_congr {mem mem' : Memory} {i : Nat} (h : mem.read (i / 8) = mem'.read (i / 8)) : mem.bit i = mem'.bit i := by
  rw [bit_eq_getLsbD, bit_eq_getLsbD, h]

/-- Bits that are not among the indices are left as they were. -/
theorem bit_setBits_of_not_mem {mem : Memory} (hw : mem.wf = true) {idxs : List Nat} {n : Nat} (h : n ∉ idxs) :
    (mem.setBits idxs).bit n = mem.bit n := by
  rw [bit_setBits hw]; simp [h]

/-- Bytes that no index addresses are left as they were. -/
theorem read_setBits_of_not_addressed {mem : Memory} (hw : mem.wf = true) {idxs : List Nat} {a : Nat}
    (h : ∀ i ∈ idxs, i / 8 ≠ a) : (mem.setBits idxs).read a = mem.read a := by
  apply read_ext
  intro p hp
  exact bit_setBits_of_not_mem hw fun hm => h _ hm (by omega)

theorem bit_zeroBelow {mem : Memory} {n i : Nat} (h : i / 8 < n) : (mem.zeroBelow n).bit i = false := by
  rw [bit_eq_getLsbD, read_zeroBelow, if_pos h]; simp

theorem bit_ofBytesAt (bytes : Message) (i : Nat) : (ofBytesAt 0 bytes).bit i = (bytes.getD (i / 8) 0x00#8).getLsbD (i % 8) := by
  have := read_ofBytesAt 0 bytes (i / 8)
  rw [Nat.zero_add] at this
  rw [bit_eq_getLsbD, this]

end Memory

end Sys2Proof.Machine
end

