-- ==== Sys2Proof/Laws/Bytes.lean ====
section
/-! SUPPORT. Laws of the byte-order helpers: `le` and `LE_n` are inverse, in both directions, and so are the two seed layouts. -/

namespace Sys2Proof

@[simp] theorem leBytes_zero (v : Nat) : leBytes 0 v = [] := rfl
@[simp] theorem leValue_nil : leValue [] = 0 := rfl
@[simp] theorem leValue_cons (b : Byte) (s : Message) : leValue (b :: s) = b.toNat + 256 * leValue s := rfl

@[simp] theorem length_leBytes (n v : Nat) : (leBytes n v).length = n := by
  induction n generalizing v with
  | zero => rfl
  | succ n ih => simp [leBytes, ih]

/-- `le(LE_n(v)) = v` for every `v` that fits. -/
theorem leValue_leBytes (n v : Nat) (h : v < 256 ^ n) : leValue (leBytes n v) = v := by
  induction n generalizing v with
  | zero => simp at h; simp [h]
  | succ n ih =>
    have hq : v / 256 < 256 ^ n := by rw [Nat.div_lt_iff_lt_mul (by decide)]; simpa [Nat.pow_succ] using h
    simp only [leBytes, leValue_cons, ih _ hq, BitVec.toNat_ofNat]
    omega

theorem leValue_lt (s : Message) : leValue s < 256 ^ s.length := by
  induction s with
  | nil => simp
  | cons b s ih =>
    have hb := b.isLt
    simp only [leValue_cons, List.length_cons, Nat.pow_succ]
    omega

/-- `LE_n(le(s)) = s` for a sequence of `n` bytes. -/
theorem leBytes_leValue (s : Message) : leBytes s.length (leValue s) = s := by
  induction s with
  | nil => rfl
  | cons b s ih =>
    have hb : b.toNat < 256 := b.isLt
    have h1 : (b.toNat + 256 * leValue s) / 256 = leValue s := by omega
    have h2 : BitVec.ofNat 8 (b.toNat + 256 * leValue s) = b := by
      apply BitVec.eq_of_toNat_eq
      simp only [BitVec.toNat_ofNat]
      omega
    simp only [List.length_cons, leBytes, leValue_cons, h1, h2, ih]

theorem leBytes_leValue_of_length {n : Nat} {s : Message} (h : s.length = n) : leBytes n (leValue s) = s := by
  subst h; exact leBytes_leValue s

theorem leValue_lt_of_length {n : Nat} {s : Message} (h : s.length = n) : leValue s < 256 ^ n := by
  subst h; exact leValue_lt s

@[simp] theorem length_seedsOfBytes (k : Nat) (s : Message) : (seedsOfBytes k s).length = k := by
  induction k generalizing s with
  | zero => rfl
  | succ k ih => simp [seedsOfBytes, ih]

@[simp] theorem bytesOfSeeds_nil : bytesOfSeeds [] = [] := rfl
@[simp] theorem bytesOfSeeds_cons (s : Seed) (rest : List Seed) :
    bytesOfSeeds (s :: rest) = leBytes 4 s.toNat ++ bytesOfSeeds rest := rfl

@[simp] theorem length_bytesOfSeeds (seeds : List Seed) : (bytesOfSeeds seeds).length = 4 * seeds.length := by
  induction seeds with
  | nil => rfl
  | cons s rest ih => simp [ih]; omega

/-- The seeds read back from their own layout, whatever follows it. -/
theorem seedsOfBytes_bytesOfSeeds (seeds : List Seed) (tail : Message) :
    seedsOfBytes seeds.length (bytesOfSeeds seeds ++ tail) = seeds := by
  induction seeds with
  | nil => rfl
  | cons s rest ih =>
    have hs : s.toNat < 256 ^ 4 := s.isLt
    have ht : (leBytes 4 s.toNat ++ (bytesOfSeeds rest ++ tail)).take 4 = leBytes 4 s.toNat :=
      List.take_left' (length_leBytes 4 _)
    have hd : (leBytes 4 s.toNat ++ (bytesOfSeeds rest ++ tail)).drop 4 = bytesOfSeeds rest ++ tail :=
      List.drop_left' (length_leBytes 4 _)
    simp only [List.length_cons, seedsOfBytes, bytesOfSeeds_cons, List.append_assoc, ht, hd, ih,
      leValue_leBytes _ _ hs, BitVec.ofNat_toNat, BitVec.setWidth_eq]

/-- The layout of the seeds read from a sequence is that sequence's first `4k` bytes. -/
theorem bytesOfSeeds_seedsOfBytes (k : Nat) (s : Message) (h : 4 * k ≤ s.length) :
    bytesOfSeeds (seedsOfBytes k s) = s.take (4 * k) := by
  induction k generalizing s with
  | zero => simp [seedsOfBytes]
  | succ k ih =>
    have h4 : (s.take 4).length = 4 := by simp; omega
    have hv : leValue (s.take 4) < 2 ^ 32 := leValue_lt_of_length h4
    have hk : 4 * k ≤ (s.drop 4).length := by simp; omega
    rw [seedsOfBytes, bytesOfSeeds_cons, ih _ hk, BitVec.toNat_ofNat, Nat.mod_eq_of_lt hv,
      leBytes_leValue_of_length h4, Nat.mul_succ, Nat.add_comm, List.take_add]

theorem length_slice (s : Message) (a n : Nat) (h : a + n ≤ s.length) : (slice s a n).length = n := by
  simp [slice]; omega

theorem le_ceil8_mul (m : Nat) : m ≤ 8 * ceil8 m := by unfold ceil8; omega

theorem ceil8_pos {m : Nat} (h : 1 ≤ m) : 1 ≤ ceil8 m := by unfold ceil8; omega

theorem ceil8_lt {m : Nat} (h : m < 2 ^ 48) : ceil8 m ≤ 2 ^ 45 := by unfold ceil8; omega

theorem div_lt_ceil8 {i m : Nat} (h : i < m) : i / 8 < ceil8 m := by unfold ceil8; omega

/-- Seed `j` of a layout is read from its own four bytes (R55, R138). -/
theorem getD_seedsOfBytes (k : Nat) (s : Message) (j : Nat) (h : j < k) :
    (seedsOfBytes k s).getD j 0 = BitVec.ofNat 32 (leValue (slice s (4 * j) 4)) := by
  induction k generalizing s j with
  | zero => omega
  | succ k ih =>
    cases j with
    | zero => simp [seedsOfBytes, slice]
    | succ j =>
      rw [seedsOfBytes, List.getD_cons_succ, ih _ _ (by omega)]
      simp only [slice, List.drop_drop]
      rw [show 4 * (j + 1) = 4 + 4 * j by omega]

end Sys2Proof
end

