-- ==== Sys2Proof/Laws/Decode.lean ====
section
/-! SUPPORT. Laws of the opcode map, of the header and of the payload layouts. -/

namespace Sys2Proof

@[simp] theorem Op.ofByte_byte (op : Op) : Op.ofByte op.byte = some op := by cases op <;> decide

theorem Op.byte_of_ofByte {b : Byte} {op : Op} (h : Op.ofByte b = some op) : op.byte = b := by
  have := List.find?_some h
  simpa using this

theorem Op.mem_all (op : Op) : op ∈ Op.all := by cases op <;> decide

/-- The legal opcode bytes are exactly `0x01 .. 0x09` (R53). -/
theorem Op.ofByte_isSome_iff (b : Byte) : (Op.ofByte b).isSome = true ↔ 1 ≤ b.toNat ∧ b.toNat ≤ 9 := by
  revert b; decide

/-- The length field says how long the payload is (R51). -/
theorem length_encodePayload (i : Instr) : (encodePayload i).length = i.payloadLength := by
  cases i with
  | config m k seeds => simp [encodePayload, Instr.payloadLength]; omega
  | addv items =>
    simp only [encodePayload, Instr.payloadLength, List.length_append, length_leBytes, List.length_flatMap]
  | _ => simp [encodePayload, Instr.payloadLength]

theorem encode_eq (i : Instr) :
    encode i = i.op.byte :: (leBytes 6 (encodePayload i).length ++ (0x00#8 :: encodePayload i)) := by
  simp [encode]

@[simp] theorem length_encode (i : Instr) : (encode i).length = 8 + i.payloadLength := by
  rw [encode_eq]; simp [length_encodePayload]; omega

@[simp] theorem headerOpcode_encode (i : Instr) : headerOpcode (encode i) = i.op.byte := by
  rw [encode_eq]; rfl

theorem slice_append_middle (a b c : Message) : slice (a ++ (b ++ c)) a.length b.length = b := by
  simp [slice]

theorem headerPlen_encode {i : Instr} (h : i.payloadLength < 2 ^ 48) : headerPlen (encode i) = i.payloadLength := by
  have hb : slice (encode i) 1 6 = leBytes 6 i.payloadLength := by
    have := slice_append_middle [i.op.byte] (leBytes 6 i.payloadLength) (0x00#8 :: encodePayload i)
    rw [encode_eq, length_encodePayload]
    simpa using this
  rw [headerPlen, hb, leValue_leBytes _ _ h]

@[simp] theorem headerRsv_encode (i : Instr) : headerRsv (encode i) = 0 := by
  rw [encode_eq, headerRsv, List.getD_cons_succ, List.getD_append_right _ _ _ _ (by simp)]
  simp

@[simp] theorem drop_encode (i : Instr) : (encode i).drop 8 = encodePayload i := by
  exact List.drop_left' (by simp)

/-- What it is for a message to decode: every step of R54 passes. -/
theorem decode_ok_iff (M : Message) (i : Instr) :
    decode M = .ok i ↔
      8 ≤ M.length ∧ M.length = 8 + headerPlen M ∧
        ∃ op, op.byte = headerOpcode M ∧ headerRsv M = 0 ∧ decodePayload op (M.drop 8) = some i := by
  constructor
  · intro h
    unfold decode at h
    split at h
    · cases h
    · rename_i h8
      split at h
      · cases h
      · rename_i hl
        split at h
        · cases h
        · rename_i op hop
          split at h
          · cases h
          · rename_i hr
            split at h
            · cases h
            · rename_i j hj
              cases h
              exact ⟨by omega, by simpa using hl, op, Op.byte_of_ofByte hop, by simpa using hr, hj⟩
  · rintro ⟨h8, hl, op, hop, hr, hi⟩
    unfold decode
    rw [if_neg (by omega), if_neg (by simpa using hl), ← hop, Op.ofByte_byte]
    simp [hr, hi]

/-- A payload is parsed into a command of its own opcode. -/
theorem op_of_decodePayload {op : Op} {p : Message} {i : Instr} (h : decodePayload op p = some i) : i.op = op := by
  cases op <;> simp only [decodePayload] at h <;> (repeat' split at h) <;> (try cases h) <;> (try rfl)
  obtain ⟨_, _, rfl⟩ := Option.map_eq_some_iff.1 h
  rfl

/-- The records of an `ADDV` read back from their own layout, where every length fits its field (R59). -/
theorem itemsOfBytes_encode (items : List Message) (h : ∀ x ∈ items, x.length < 2 ^ 48) :
    itemsOfBytes items.length (items.flatMap fun x => leBytes 6 x.length ++ x) = some items := by
  induction items with
  | nil => rfl
  | cons x rest ih =>
    have hx : x.length < 256 ^ 6 := h x (by simp)
    have hd : List.drop 6 (leBytes 6 x.length ++ (x ++ rest.flatMap fun x => leBytes 6 x.length ++ x)) =
        x ++ rest.flatMap fun x => leBytes 6 x.length ++ x := List.drop_left' (length_leBytes 6 _)
    have ht : List.take 6 (leBytes 6 x.length ++ (x ++ rest.flatMap fun x => leBytes 6 x.length ++ x)) =
        leBytes 6 x.length := List.take_left' (length_leBytes 6 _)
    simp only [List.length_cons, itemsOfBytes, List.flatMap_cons, List.append_assoc, hd, ht, leValue_leBytes _ _ hx]
    rw [if_neg (by simp), if_neg (by simp), List.drop_left, List.take_left, ih fun y hy => h y (by simp [hy])]
    rfl

/-- Records that parse are laid out as the bytes they were parsed from, and there are as many as were asked for (R59). -/
theorem encode_itemsOfBytes {n : Nat} {p : Message} {items : List Message} (h : itemsOfBytes n p = some items) :
    items.length = n ∧ (items.flatMap fun x => leBytes 6 x.length ++ x) = p := by
  induction n generalizing p items with
  | zero =>
    unfold itemsOfBytes at h
    split at h
    · cases h; subst_vars; exact ⟨rfl, rfl⟩
    · cases h
  | succ n ih =>
    unfold itemsOfBytes at h
    split at h
    · cases h
    · rename_i h6
      simp only at h
      split at h
      · cases h
      · rename_i hL
        rw [Option.map_eq_some_iff] at h
        obtain ⟨rest, hr, rfl⟩ := h
        obtain ⟨hl, hp⟩ := ih hr
        refine ⟨by simp [hl], ?_⟩
        have hlen : ((p.drop 6).take (leValue (p.take 6))).length = leValue (p.take 6) := by
          simp only [List.length_take]; omega
        have h6' : (p.take 6).length = 6 := by simp; omega
        rw [List.flatMap_cons, hlen, leBytes_leValue_of_length h6', hp, List.append_assoc, List.take_append_drop,
          List.take_append_drop]

/-- The illegal opcode bytes are `0x00` and `0x0A .. 0xFF` (R65). -/
theorem Op.ofByte_eq_none_iff (b : Byte) : Op.ofByte b = none ↔ b.toNat = 0 ∨ 10 ≤ b.toNat := by
  have := Op.ofByte_isSome_iff b
  cases h : Op.ofByte b <;> simp [h] at this ⊢ <;> omega

theorem decode_of_short {M : Message} (h : M.length < 8) : decode M = .error .shortHeader := by
  unfold decode; rw [if_pos h]

theorem decode_of_length_ne {M : Message} (h8 : 8 ≤ M.length) (hl : M.length ≠ 8 + headerPlen M) :
    decode M = .error .lengthMismatch := by
  unfold decode; rw [if_neg (by omega), if_pos hl]

theorem decode_of_illegal {M : Message} (h8 : 8 ≤ M.length) (hl : M.length = 8 + headerPlen M)
    (hop : Op.ofByte (headerOpcode M) = none) : decode M = .error .illegalOpcode := by
  unfold decode; rw [if_neg (by omega), if_neg (by simpa using hl), hop]

/-- The last three steps of R54, for a message that is framed right and has a legal opcode. -/
theorem decode_of_legal {M : Message} {op : Op} (h8 : 8 ≤ M.length) (hl : M.length = 8 + headerPlen M)
    (hop : headerOpcode M = op.byte) :
    decode M =
      if headerRsv M ≠ 0 then .error .reservedByte
      else
        match decodePayload op (M.drop 8) with
        | none => .error .payloadShape
        | some i => .ok i := by
  have hop' : Op.ofByte (headerOpcode M) = some op := by rw [hop, Op.ofByte_byte]
  unfold decode
  rw [if_neg (by omega), if_neg (by simpa using hl)]
  generalize Op.ofByte (headerOpcode M) = o at hop' ⊢
  subst hop'
  rfl

/-- What decodes carries the seed count its list has (R55). -/
theorem countAgrees_of_decodePayload {op : Op} {p : Message} {i : Instr} (h : decodePayload op p = some i) :
    i.countAgrees = true := by
  cases op <;> simp only [decodePayload] at h <;> (repeat' split at h) <;> (try cases h) <;> (try rfl)
  · rename_i h8 hl
    have h2 : leValue (slice p 6 2) < 2 ^ 16 := leValue_lt_of_length (length_slice _ _ _ (by omega))
    simp [Instr.countAgrees]; omega
  · obtain ⟨_, _, rfl⟩ := Option.map_eq_some_iff.1 h; rfl

theorem countAgrees_of_decode {M : Message} {i : Instr} (h : decode M = .ok i) : i.countAgrees = true := by
  obtain ⟨-, -, op, -, -, hi⟩ := (decode_ok_iff M i).1 h
  exact countAgrees_of_decodePayload hi

/-- Every item of an `ADDV` payload has a length that its 6-byte field can say (R59). -/
theorem length_of_mem_itemsOfBytes {n : Nat} {p : Message} {items : List Message} (h : itemsOfBytes n p = some items) :
    ∀ x ∈ items, x.length < 2 ^ 48 := by
  induction n generalizing p items with
  | zero =>
    unfold itemsOfBytes at h
    split at h
    · cases h; simp
    · cases h
  | succ n ih =>
    unfold itemsOfBytes at h
    split at h
    · cases h
    · rename_i h6
      simp only at h
      split at h
      · cases h
      · rw [Option.map_eq_some_iff] at h
        obtain ⟨rest, hr, rfl⟩ := h
        have hL : leValue (p.take 6) < 2 ^ 48 := leValue_lt_of_length (n := 6) (by simp; omega)
        intro x hx
        rcases List.mem_cons.1 hx with rfl | hx
        · rw [List.length_take]; omega
        · exact ih hr x hx

end Sys2Proof
end

