-- ==== Sys2Proof/Laws/State.lean ====
section
/-! SUPPORT. The small lemmas of the state's updates, one per field, each true by `rfl`, and those of the live registers. -/

namespace Sys2Proof

theorem Config.maxBits_pos (c : Config) : 1 ≤ c.maxBits := Nat.succ_le_succ (Nat.zero_le _)

theorem Config.maxBits_lt (c : Config) : c.maxBits < 2 ^ 48 := by
  have := c.maxBitsLessOne.isLt
  unfold Config.maxBits; omega

end Sys2Proof

namespace Sys2Proof.Machine

namespace State

@[simp] theorem emit_valid (s : State) (P : Message) : (s.emit P).valid = s.valid := rfl
@[simp] theorem emit_bitcount (s : State) (P : Message) : (s.emit P).bitcount = s.bitcount := rfl
@[simp] theorem emit_k (s : State) (P : Message) : (s.emit P).k = s.k := rfl
@[simp] theorem emit_seeds (s : State) (P : Message) : (s.emit P).seeds = s.seeds := rfl
@[simp] theorem emit_buf (s : State) (P : Message) : (s.emit P).buf = s.buf := rfl
@[simp] theorem emit_inbox (s : State) (P : Message) : (s.emit P).inbox = s.inbox := rfl
@[simp] theorem emit_out (s : State) (P : Message) : (s.emit P).out = s.out ++ [P] := rfl
@[simp] theorem emit_liveSeeds (s : State) (P : Message) : (s.emit P).liveSeeds = s.liveSeeds := rfl
@[simp] theorem emit_liveBytes (s : State) (P : Message) : (s.emit P).liveBytes = s.liveBytes := rfl
@[simp] theorem emit_liveBuffer (s : State) (P : Message) : (s.emit P).liveBuffer = s.liveBuffer := rfl

@[simp] theorem afterReset_valid (s : State) : s.afterReset.valid = false := rfl
@[simp] theorem afterReset_buf (s : State) : s.afterReset.buf = [] := rfl
@[simp] theorem afterReset_inbox (s : State) : s.afterReset.inbox = s.inbox := rfl
@[simp] theorem afterReset_out (s : State) : s.afterReset.out = s.out := rfl

@[simp] theorem reset_valid : State.reset.valid = false := rfl
@[simp] theorem reset_buf : State.reset.buf = [] := rfl

@[simp] theorem length_liveSeeds (s : State) : s.liveSeeds.length = s.k.toNat := by simp [liveSeeds]

/-- While the listed seeds are as many as `K` says, they are the live ones. -/
theorem liveSeeds_of_counted {s : State} (h : s.seeds.length = s.k.toNat) : s.liveSeeds = s.seeds := by
  apply List.ext_getElem
  · simp [h]
  · intro j h1 h2
    simp [liveSeeds, seed, h2]

@[simp] theorem length_liveBuffer (s : State) : s.liveBuffer.length = s.liveBytes := by
  simp [liveBuffer, Memory.readRange]

end State

@[simp] theorem insertItem_valid (c : Config) (s : State) (x : Message) : (insertItem c s x).valid = s.valid := rfl
@[simp] theorem insertItem_bitcount (c : Config) (s : State) (x : Message) : (insertItem c s x).bitcount = s.bitcount := rfl
@[simp] theorem insertItem_k (c : Config) (s : State) (x : Message) : (insertItem c s x).k = s.k := rfl
@[simp] theorem insertItem_seeds (c : Config) (s : State) (x : Message) : (insertItem c s x).seeds = s.seeds := rfl
@[simp] theorem insertItem_inbox (c : Config) (s : State) (x : Message) : (insertItem c s x).inbox = s.inbox := rfl
@[simp] theorem insertItem_out (c : Config) (s : State) (x : Message) : (insertItem c s x).out = s.out := rfl
@[simp] theorem insertItem_buf (c : Config) (s : State) (x : Message) :
    (insertItem c s x).buf = s.buf.setBits (lanes c s x) := rfl

@[simp] theorem lanes_emit (c : Config) (s : State) (P x : Message) : lanes c (s.emit P) x = lanes c s x := rfl
@[simp] theorem lanes_insertItem (c : Config) (s : State) (y x : Message) : lanes c (insertItem c s y) x = lanes c s x := rfl

/-- Lanes read nothing of a state but `BITCOUNT`, `K` and `SEED` (R103). -/
theorem lanes_congr (c : Config) {s t : State} (hm : s.bitcount = t.bitcount) (hs : s.liveSeeds = t.liveSeeds) (x : Message) :
    lanes c s x = lanes c t x := by simp [lanes, hm, hs]

@[simp] theorem length_lanes (c : Config) (s : State) (x : Message) : (lanes c s x).length = s.k.toNat := by simp [lanes]

/-- R102: every lane index is below `BITCOUNT`. -/
theorem lanes_lt {c : Config} {s : State} (h : 1 ≤ s.bitcount.toNat) {x : Message} {i : Nat} (hi : i ∈ lanes c s x) :
    i < s.bitcount.toNat := by
  simp only [lanes, List.mem_map] at hi
  obtain ⟨d, -, rfl⟩ := hi
  exact Nat.mod_lt _ h

/-- Adding items changes `BUF` alone, and there it sets the bits of every item's lanes. -/
theorem foldl_insertItem (c : Config) (xs : List Message) (s : State) :
    xs.foldl (insertItem c) s = { s with buf := s.buf.setBits (xs.flatMap (lanes c s)) } := by
  induction xs generalizing s with
  | nil => rfl
  | cons x xs ih =>
    rw [List.foldl_cons, ih]
    have hl : ∀ y, lanes c (insertItem c s x) y = lanes c s y := fun _ => rfl
    simp [insertItem, Memory.setBits, List.foldl_append, lanes, State.liveSeeds]
    rfl

end Sys2Proof.Machine
end

