-- ==== Sys2Proof/Laws/Ops.lean ====
section
/-! SUPPORT. One lemma for each shared operation that says everything it can do, and the inversion lemma of a command: what any command
whatever can do to the machine. -/

namespace Sys2Proof.Machine

@[simp] theorem respond_eq (op : Op) (payload : Message) (s : State) :
    respond op payload s = .next (s.emit (responseMessage .ok op.byte payload)) := rfl

@[simp] theorem raiseFault_eq (st : Status) (echo : Byte) (s : State) :
    raiseFault st echo s = .next (s.emit (responseMessage st echo [])) := rfl

theorem withFilter_of_valid {op : Op} {s : State} {body : Result} (h : s.valid = true) : withFilter op s body = body := by
  simp [withFilter, h]

theorem withFilter_of_invalid {op : Op} {s : State} {body : Result} (h : s.valid = false) :
    withFilter op s body = raiseFault .notConfigured op.byte s := by simp [withFilter, h]

theorem withIndex_of_lt {op : Op} {i : Index} {s : State} {body : Result} (h : s.valid = true)
    (hi : i.toNat < s.bitcount.toNat) : withIndex op i s body = body := by
  rw [withIndex, withFilter_of_valid h, if_neg (by rw [BitVec.le_def]; omega)]

theorem withIndex_of_ge {op : Op} {i : Index} {s : State} {body : Result} (h : s.valid = true)
    (hi : s.bitcount.toNat ≤ i.toNat) : withIndex op i s body = raiseFault .range op.byte s := by
  rw [withIndex, withFilter_of_valid h, if_pos (by rw [BitVec.le_def]; exact hi)]

@[simp] theorem itemTooLong_iff (c : Config) (x : Message) : itemTooLong c x = true ↔ c.itemMax.toNat < x.length := by
  simp [itemTooLong]

theorem withItems_of_fit {c : Config} {op : Op} {items : List Message} {s : State} {body : Result} (h : s.valid = true)
    (hx : ∀ x ∈ items, x.length ≤ c.itemMax.toNat) : withItems c op items s body = body := by
  rw [withItems, withFilter_of_valid h, if_neg]
  simp only [List.any_eq_true, itemTooLong_iff, not_exists, not_and]
  intro x hm
  have := hx x hm
  omega

theorem withItems_of_long {c : Config} {op : Op} {items : List Message} {s : State} {body : Result} (h : s.valid = true)
    {x : Message} (hm : x ∈ items) (hx : c.itemMax.toNat < x.length) :
    withItems c op items s body = raiseFault .capacity op.byte s := by
  rw [withItems, withFilter_of_valid h, if_pos]
  simp only [List.any_eq_true, itemTooLong_iff]
  exact ⟨x, hm, hx⟩

/-- Everything the checks of a command can do: let its body run, or answer with a fault on the unchanged state. -/
theorem withFilter_cases (op : Op) (s : State) (body : Result) :
    (s.valid = true ∧ withFilter op s body = body) ∨
    (s.valid = false ∧ withFilter op s body = .next (s.emit (responseMessage .notConfigured op.byte []))) := by
  cases h : s.valid with
  | true => exact .inl ⟨rfl, withFilter_of_valid h⟩
  | false => exact .inr ⟨rfl, withFilter_of_invalid h⟩

theorem withIndex_cases (op : Op) (i : Index) (s : State) (body : Result) :
    (s.valid = true ∧ i.toNat < s.bitcount.toNat ∧ withIndex op i s body = body) ∨
    ∃ st, (st = .notConfigured ∧ s.valid = false ∨ st = .range ∧ s.valid = true ∧ s.bitcount.toNat ≤ i.toNat) ∧
      withIndex op i s body = .next (s.emit (responseMessage st op.byte [])) := by
  rcases withFilter_cases op s (if s.bitcount ≤ i then raiseFault .range op.byte s else body) with ⟨hv, -⟩ | ⟨hv, h⟩
  · rcases Nat.lt_or_ge i.toNat s.bitcount.toNat with hi | hi
    · exact .inl ⟨hv, hi, withIndex_of_lt hv hi⟩
    · exact .inr ⟨.range, .inr ⟨rfl, hv, hi⟩, withIndex_of_ge hv hi⟩
  · exact .inr ⟨.notConfigured, .inl ⟨rfl, hv⟩, h⟩

theorem withItems_cases (c : Config) (op : Op) (items : List Message) (s : State) (body : Result) :
    (s.valid = true ∧ (∀ x ∈ items, x.length ≤ c.itemMax.toNat) ∧ withItems c op items s body = body) ∨
    ∃ st, (st = .notConfigured ∧ s.valid = false ∨
        st = .capacity ∧ s.valid = true ∧ ∃ x ∈ items, c.itemMax.toNat < x.length) ∧
      withItems c op items s body = .next (s.emit (responseMessage st op.byte [])) := by
  rcases withFilter_cases op s (if items.any (itemTooLong c) then raiseFault .capacity op.byte s else body)
    with ⟨hv, -⟩ | ⟨hv, h⟩
  · by_cases hx : ∀ x ∈ items, x.length ≤ c.itemMax.toNat
    · exact .inl ⟨hv, hx, withItems_of_fit hv hx⟩
    · simp only [not_forall, not_le] at hx
      obtain ⟨x, hm, hl⟩ := hx
      exact .inr ⟨.capacity, .inr ⟨rfl, hv, x, hm, hl⟩, withItems_of_long hv hm hl⟩
  · exact .inr ⟨.notConfigured, .inl ⟨rfl, hv⟩, h⟩

/-- A status is at most one byte value, and `0x00` is `OK` alone (R170). -/
theorem statusByte_inj {a b : Status} (h : statusByte a = statusByte b) : a = b := by
  cases a <;> cases b <;> first | rfl | (exact absurd h (by decide))

theorem responseMessage_eq (st : Status) (echo : Byte) (payload : Message) :
    responseMessage st echo payload = statusByte st :: (leBytes 6 payload.length ++ (echo :: payload)) := by
  simp [responseMessage]

@[simp] theorem length_responseMessage (st : Status) (echo : Byte) (payload : Message) :
    (responseMessage st echo payload).length = 8 + payload.length := by
  rw [responseMessage_eq]; simp; omega

/-- A response says its status, its echo and its payload: no two responses share a message. -/
theorem responseMessage_inj {st st' : Status} {echo echo' : Byte} {p p' : Message}
    (h : responseMessage st echo p = responseMessage st' echo' p') : st = st' ∧ echo = echo' ∧ p = p' := by
  rw [responseMessage_eq, responseMessage_eq, List.cons.injEq] at h
  have h2 := List.append_inj h.2 (by simp)
  rw [List.cons.injEq] at h2
  exact ⟨statusByte_inj h.1, h2.2.1, h2.2.2⟩

/-- What a step does with nothing to do. -/
theorem step_idle {s : State} (h : s.inbox = []) : step s = .next s := by simp [step, takeNext, h]

theorem step_command {s : State} {M : Message} {rest : List HostEvent} (h : s.inbox = .command M :: rest) :
    step s = takeCommand M { s with inbox := rest } := by simp [step, takeNext, takeEvent, h]

theorem step_afterReset {s : State} {e : HostEvent} {rest : List HostEvent} (h : s.inbox = e :: rest)
    (he : ∀ M, e ≠ .command M) : step s = .next ({ s with inbox := rest } : State).afterReset := by
  cases e with
  | command M => exact absurd rfl (he M)
  | reset => simp [step, takeNext, takeEvent, h]
  | commandCut M => simp [step, takeNext, takeEvent, h]

theorem takeCommand_error {M : Message} {e : DecodeError} (h : decode M = .error e) (s : State) :
    takeCommand M s = raiseFault e.status (headerOpcode M) s := by simp only [takeCommand, h]

theorem takeCommand_ok {M : Message} {i : Instr} (h : decode M = .ok i) (s : State) : takeCommand M s = exec i s := by
  simp only [takeCommand, h]

/-- The five checks of an image passed, in one lemma (R138). -/
theorem imageStatus_ok_iff (c : Config) (I : Message) :
    imageStatus c I = .ok ↔
      I.getD 0 0 = 0x01 ∧ 8 + 4 * imageSeedCount I ≤ I.length ∧ imageBitCount I ≠ 0 ∧
        (imageBuffer I).length = ceil8 (imageBitCount I) ∧ imageBitCount I ≤ c.maxBits ∧
        imageSeedCount I ≤ c.kMax.toNat := by
  constructor
  · intro h
    unfold imageStatus at h
    repeat' split at h
    all_goals first
      | exact absurd h (by decide)
      | (refine ⟨?_, ?_, ?_, ?_, ?_, ?_⟩ <;> first | omega | (simp only [ne_eq, not_not] at *; assumption))
  · rintro ⟨h0, h1, h2, h3, h4, h5⟩
    unfold imageStatus
    rw [if_neg (by omega), if_neg (by simpa using h0), if_neg (by omega), if_neg (by omega), if_neg h2,
      if_neg (by simpa using h3), if_neg (by omega), if_neg (by omega)]

theorem imageBitCount_lt (I : Message) : imageBitCount I < 2 ^ 48 := by
  have h : (slice I 1 6).length ≤ 6 := by simp [slice]
  calc imageBitCount I < 256 ^ (slice I 1 6).length := leValue_lt _
    _ ≤ 256 ^ 6 := Nat.pow_le_pow_right (by decide) h

theorem imageSeedCount_lt (I : Message) : imageSeedCount I < 256 := (I.getD 7 0).isLt

/-- The registers a successful `LOAD` writes hold the image's own numbers. -/
theorem toNat_imageBitCount (I : Message) : (BitVec.ofNat 48 (imageBitCount I)).toNat = imageBitCount I :=
  (BitVec.toNat_ofNat _ _).trans (Nat.mod_eq_of_lt (imageBitCount_lt I))

theorem toNat_imageSeedCount (I : Message) : (BitVec.ofNat 16 (imageSeedCount I)).toNat = imageSeedCount I :=
  (BitVec.toNat_ofNat _ _).trans (Nat.mod_eq_of_lt (by have := imageSeedCount_lt I; omega))

theorem length_imageBuffer (I : Message) : (imageBuffer I).length = I.length - 8 - 4 * (I.getD 7 0).toNat := by
  simp only [imageBuffer, imageSeedCount, List.length_drop]; omega

theorem statuses_of_image (c : Config) (I : Message) : imageStatus c I ∈ [Status.ok, .version, .image, .capacity] := by
  unfold imageStatus
  repeat' split
  all_goals decide

/-! The fields of a written image, read back (R130, R135). -/

theorem imageBitCount_imageMessage (m : Index) (k : Byte) (seeds : List Seed) (buffer : Message) :
    imageBitCount (imageMessage m k seeds buffer) = m.toNat := by
  have hm : m.toNat < 256 ^ 6 := m.isLt
  have h := slice_append_middle [0x01] (leBytes 6 m.toNat) ([k] ++ bytesOfSeeds seeds ++ buffer)
  simp only [length_leBytes, List.length_singleton, List.append_assoc] at h
  rw [imageBitCount, imageMessage]
  simp only [List.append_assoc]
  rw [h, leValue_leBytes _ _ hm]

theorem imageSeedCount_imageMessage (m : Index) (k : Byte) (seeds : List Seed) (buffer : Message) :
    imageSeedCount (imageMessage m k seeds buffer) = k.toNat := by
  rw [imageSeedCount, imageMessage]
  simp only [List.append_assoc]
  rw [List.getD_append_right _ _ _ _ (by simp), List.getD_append_right _ _ _ _ (by simp)]
  simp

theorem drop_imageMessage (m : Index) (k : Byte) (seeds : List Seed) (buffer : Message) :
    (imageMessage m k seeds buffer).drop 8 = bytesOfSeeds seeds ++ buffer := by
  rw [imageMessage, List.append_assoc]; exact List.drop_left' (by simp)

end Sys2Proof.Machine
end

