-- ==== Sys2Proof/Laws/Commands.lean ====
section
/-! SUPPORT. What a command can do, said once: the effect of every command that is answered `OK`, the inversion lemma of `exec`, what
it is for a command to be answered `OK`, and what a step on a command message can do. -/

namespace Sys2Proof.Machine

/-- What the five items of R10 are after a command that is answered `OK`, command by command: the one place where every effect stands. -/
def EffectOf (i : Instr) (s s' : State) (payload : Message) : Prop :=
  match i with
  | .config m k seeds =>
    m ≠ 0 ∧ m.toNat ≤ Config.engine.maxBits ∧ k.toNat ≤ Config.engine.kMax.toNat ∧ payload = [] ∧
      s' = { s with valid := true, bitcount := m, k := k, seeds := seeds, buf := [] }
  | .setbit j => s.valid = true ∧ j.toNat < s.bitcount.toNat ∧ payload = [] ∧ s' = { s with buf := s.buf.setBit j.toNat }
  | .getbit j => s.valid = true ∧ j.toNat < s.bitcount.toNat ∧ payload = [boolByte (s.buf.bit j.toNat)] ∧ s' = s
  | .add x =>
    s.valid = true ∧ x.length ≤ Config.engine.itemMax.toNat ∧ payload = [] ∧
      s' = { s with buf := s.buf.setBits (lanes Config.engine s x) }
  | .addv xs =>
    s.valid = true ∧ (∀ x ∈ xs, x.length ≤ Config.engine.itemMax.toNat) ∧ payload = [] ∧
      s' = { s with buf := s.buf.setBits (xs.flatMap (lanes Config.engine s)) }
  | .has x =>
    s.valid = true ∧ x.length ≤ Config.engine.itemMax.toNat ∧
      payload = [boolByte (s.buf.allBits (lanes Config.engine s x))] ∧ s' = s
  | .clear => s.valid = true ∧ payload = [] ∧ s' = { s with buf := s.buf.zeroBelow s.liveBytes }
  | .serialize =>
    s.valid = true ∧ s.k.toNat ≤ 255 ∧
      payload = imageMessage s.bitcount (s.k.setWidth 8) s.liveSeeds s.liveBuffer ∧ s' = s
  | .load I =>
    imageStatus Config.engine I = .ok ∧ payload = [] ∧
      s' = { s with
        valid := true
        bitcount := BitVec.ofNat 48 (imageBitCount I)
        k := BitVec.ofNat 16 (imageSeedCount I)
        seeds := imageSeeds I
        buf := Memory.ofBytesAt 0 (imageBuffer I) }

/-- The inversion lemma of a command. It answers a next state always; either it is answered `OK` and has its effect, or it is answered with
a fault and an empty payload and changes nothing else (R171). -/
theorem exec_cases (i : Instr) (s : State) :
    (∃ s' payload, EffectOf i s s' payload ∧ exec i s = .next (s'.emit (responseMessage .ok i.op.byte payload))) ∨
    (∃ st, st ≠ .ok ∧ exec i s = .next (s.emit (responseMessage st i.op.byte []))) := by
  cases i with
  | config m k seeds =>
    by_cases h1 : m = 0
    · exact .inr ⟨.config, by decide, by simp [exec, execConfig, configOn, h1, Instr.op]⟩
    by_cases h2 : Config.engine.maxBits < m.toNat
    · exact .inr ⟨.capacity, by decide, by rw [exec, execConfig, configOn, if_neg h1, if_pos h2]; rfl⟩
    by_cases h3 : Config.engine.kMax.toNat < k.toNat
    · exact .inr ⟨.capacity, by decide, by rw [exec, execConfig, configOn, if_neg h1, if_neg h2, if_pos h3]; rfl⟩
    exact .inl ⟨_, _, ⟨h1, by omega, by omega, rfl, rfl⟩, by rw [exec, execConfig, configOn, if_neg h1, if_neg h2, if_neg h3]; rfl⟩
  | setbit j =>
    rcases withIndex_cases .setbit j s (respond .setbit [] { s with buf := s.buf.setBit j.toNat }) with
      ⟨hv, hj, h⟩ | ⟨st, hst, h⟩
    · exact .inl ⟨_, _, ⟨hv, hj, rfl, rfl⟩, h⟩
    · exact .inr ⟨st, by rcases hst with ⟨rfl, -⟩ | ⟨rfl, -⟩ <;> decide, h⟩
  | getbit j =>
    rcases withIndex_cases .getbit j s (respond .getbit [boolByte (s.buf.bit j.toNat)] s) with ⟨hv, hj, h⟩ | ⟨st, hst, h⟩
    · exact .inl ⟨_, _, ⟨hv, hj, rfl, rfl⟩, h⟩
    · exact .inr ⟨st, by rcases hst with ⟨rfl, -⟩ | ⟨rfl, -⟩ <;> decide, h⟩
  | add x =>
    rcases withItems_cases Config.engine .add [x] s (respond .add [] (insertItem Config.engine s x)) with
      ⟨hv, hx, h⟩ | ⟨st, hst, h⟩
    · exact .inl ⟨_, _, ⟨hv, hx x (by simp), rfl, rfl⟩, h⟩
    · exact .inr ⟨st, by rcases hst with ⟨rfl, -⟩ | ⟨rfl, -⟩ <;> decide, h⟩
  | addv xs =>
    rcases withItems_cases Config.engine .addv xs s (respond .addv [] (xs.foldl (insertItem Config.engine) s)) with
      ⟨hv, hx, h⟩ | ⟨st, hst, h⟩
    · exact .inl ⟨_, _, ⟨hv, hx, rfl, rfl⟩, h.trans (by rw [foldl_insertItem]; rfl)⟩
    · exact .inr ⟨st, by rcases hst with ⟨rfl, -⟩ | ⟨rfl, -⟩ <;> decide, h⟩
  | has x =>
    rcases withItems_cases Config.engine .has [x] s
      (respond .has [boolByte (s.buf.allBits (lanes Config.engine s x))] s) with ⟨hv, hx, h⟩ | ⟨st, hst, h⟩
    · exact .inl ⟨_, _, ⟨hv, hx x (by simp), rfl, rfl⟩, h⟩
    · exact .inr ⟨st, by rcases hst with ⟨rfl, -⟩ | ⟨rfl, -⟩ <;> decide, h⟩
  | clear =>
    rcases withFilter_cases .clear s (respond .clear [] { s with buf := s.buf.zeroBelow s.liveBytes }) with ⟨hv, h⟩ | ⟨-, h⟩
    · exact .inl ⟨_, _, ⟨hv, rfl, rfl⟩, h⟩
    · exact .inr ⟨.notConfigured, by decide, h⟩
  | serialize =>
    rcases withFilter_cases .serialize s
      (if 255 < s.k.toNat then raiseFault .seedOverflow Op.serialize.byte s
       else respond .serialize (imageMessage s.bitcount (s.k.setWidth 8) s.liveSeeds s.liveBuffer) s) with ⟨hv, h⟩ | ⟨-, h⟩
    · by_cases hk : 255 < s.k.toNat
      · exact .inr ⟨.seedOverflow, by decide, h.trans (if_pos hk)⟩
      · exact .inl ⟨_, _, ⟨hv, by omega, rfl, rfl⟩, h.trans (if_neg hk)⟩
    · exact .inr ⟨.notConfigured, by decide, h⟩
  | load I =>
    by_cases h : imageStatus Config.engine I = .ok
    · exact .inl ⟨_, _, ⟨h, rfl, rfl⟩, by simp [exec, execLoad, loadOn, h, Instr.op]⟩
    · exact .inr ⟨_, h, by simp [exec, execLoad, loadOn, h, Instr.op]⟩

/-- One step of a run, of any machine. -/
theorem run_succ_of_step {C : Host.Core} {s t : C.State} (n : Nat) (h : C.step s = .next t) : C.run (n + 1) s = C.run n t := by
  simp only [Host.Core.run, h]

/-- One step of a run of this machine. -/
theorem run_of_step {s t : State} (n : Nat) (h : step s = .next t) :
    Host.Core.run Sys2Proof.core (n + 1) s = Host.Core.run Sys2Proof.core n t :=
  run_succ_of_step (C := Sys2Proof.core) n h

@[simp] theorem run_zero (s : State) : Host.Core.run Sys2Proof.core 0 s = .next s := rfl

/-- A command whose checks pass has its effect: the other direction of the inversion lemma. -/
theorem exec_of_effect {i : Instr} {s s' : State} {payload : Message} (h : EffectOf i s s' payload) :
    exec i s = .next (s'.emit (responseMessage .ok i.op.byte payload)) := by
  cases i with
  | config m k seeds =>
    obtain ⟨h1, h2, h3, rfl, rfl⟩ := h
    rw [exec, execConfig, configOn, if_neg h1, if_neg (by omega), if_neg (by omega)]; rfl
  | setbit j => obtain ⟨hv, hj, rfl, rfl⟩ := h; exact withIndex_of_lt hv hj
  | getbit j => obtain ⟨hv, hj, rfl, rfl⟩ := h; exact withIndex_of_lt hv hj
  | add x => obtain ⟨hv, hx, rfl, rfl⟩ := h; exact withItems_of_fit hv (by simpa using hx)
  | addv xs =>
    obtain ⟨hv, hx, rfl, rfl⟩ := h
    exact (withItems_of_fit hv hx).trans (by rw [foldl_insertItem]; rfl)
  | has x => obtain ⟨hv, hx, rfl, rfl⟩ := h; exact withItems_of_fit hv (by simpa using hx)
  | clear => obtain ⟨hv, rfl, rfl⟩ := h; exact withFilter_of_valid hv
  | serialize => obtain ⟨hv, hk, rfl, rfl⟩ := h; exact (withFilter_of_valid hv).trans (if_neg (by omega))
  | load I => obtain ⟨hI, rfl, rfl⟩ := h; exact if_pos hI

/-- No command touches the channels but by its one response. -/
theorem EffectOf.channels {i : Instr} {s s' : State} {payload : Message} (h : EffectOf i s s' payload) :
    s'.inbox = s.inbox ∧ s'.out = s.out := by
  cases i with
  | config m k seeds => obtain ⟨-, -, -, -, rfl⟩ := h; exact ⟨rfl, rfl⟩
  | setbit j => obtain ⟨-, -, -, rfl⟩ := h; exact ⟨rfl, rfl⟩
  | getbit j => obtain ⟨-, -, -, rfl⟩ := h; exact ⟨rfl, rfl⟩
  | add x => obtain ⟨-, -, -, rfl⟩ := h; exact ⟨rfl, rfl⟩
  | addv xs => obtain ⟨-, -, -, rfl⟩ := h; exact ⟨rfl, rfl⟩
  | has x => obtain ⟨-, -, -, rfl⟩ := h; exact ⟨rfl, rfl⟩
  | clear => obtain ⟨-, -, rfl⟩ := h; exact ⟨rfl, rfl⟩
  | serialize => obtain ⟨-, -, -, rfl⟩ := h; exact ⟨rfl, rfl⟩
  | load I => obtain ⟨-, -, rfl⟩ := h; exact ⟨rfl, rfl⟩

/-- Every response payload fits the 48-bit length field of R52. -/
theorem EffectOf.payload_lt {i : Instr} {s s' : State} {payload : Message} (h : EffectOf i s s' payload) :
    payload.length < 2 ^ 48 := by
  cases i with
  | config m k seeds => obtain ⟨-, -, -, rfl, -⟩ := h; simp
  | setbit j => obtain ⟨-, -, rfl, -⟩ := h; simp
  | getbit j => obtain ⟨-, -, rfl, -⟩ := h; simp
  | add x => obtain ⟨-, -, rfl, -⟩ := h; simp
  | addv xs => obtain ⟨-, -, rfl, -⟩ := h; simp
  | has x => obtain ⟨-, -, rfl, -⟩ := h; simp
  | clear => obtain ⟨-, rfl, -⟩ := h; simp
  | serialize =>
    obtain ⟨-, hk, rfl, -⟩ := h
    have := ceil8_lt s.bitcount.isLt
    simp only [imageMessage, List.length_append, List.length_cons, List.length_nil, length_leBytes,
      length_bytesOfSeeds, State.length_liveSeeds, State.length_liveBuffer, State.liveBytes]
    omega
  | load I => obtain ⟨-, rfl, -⟩ := h; simp

/-- What it is for a command to be answered `OK`: its effect, and the response that carries its payload. -/
theorem completesOk_iff {i : Instr} {s t : State} :
    CompletesOk i s t ↔
      ∃ s' payload, EffectOf i s s' payload ∧ t = s'.emit (responseMessage .ok i.op.byte payload) := by
  constructor
  · rintro ⟨hx, p, hp⟩
    rcases exec_cases i s with ⟨s', payload, he, hx'⟩ | ⟨st, hst, hx'⟩
    · rw [hx] at hx'
      cases hx'
      exact ⟨s', payload, he, rfl⟩
    · rw [hx] at hx'
      cases hx'
      rw [State.emit_out, List.append_cancel_left_eq, List.cons.injEq] at hp
      exact absurd (responseMessage_inj hp.1).1 hst
  · rintro ⟨s', payload, he, rfl⟩
    exact ⟨exec_of_effect he, payload, by rw [State.emit_out, he.channels.2]⟩

/-- A decoded command echoes the opcode byte it was decoded from. -/
theorem headerOpcode_of_decode {M : Message} {i : Instr} (h : decode M = .ok i) : headerOpcode M = i.op.byte := by
  obtain ⟨op, hop, -, hi⟩ := (decode_ok_iff M i).1 h |>.2.2
  rw [← hop]
  congr 1
  exact (op_of_decodePayload hi).symm

/-- Everything a step on a command message can do: one response, on the state the command left; with a status other than `OK`, an empty
payload and nothing else (R50, R171). -/
theorem step_command_cases {s : State} {M : Message} {rest : List HostEvent} (h : s.inbox = .command M :: rest) :
    ∃ s' st payload, step s = .next (s'.emit (responseMessage st (headerOpcode M) payload)) ∧
      s'.inbox = rest ∧ s'.out = s.out ∧ payload.length < 2 ^ 48 ∧
      (st ≠ .ok → s' = { s with inbox := rest } ∧ payload = []) := by
  rw [step_command h]
  cases hd : decode M with
  | error e =>
    exact ⟨{ s with inbox := rest }, e.status, [], by rw [takeCommand_error hd]; rfl, rfl, rfl, by simp, fun _ => ⟨rfl, rfl⟩⟩
  | ok i =>
    rw [takeCommand_ok hd, headerOpcode_of_decode hd]
    rcases exec_cases i { s with inbox := rest } with ⟨s', payload, he, hx⟩ | ⟨st, hst, hx⟩
    · exact ⟨s', .ok, payload, hx, he.channels.1, he.channels.2, he.payload_lt, fun h => absurd rfl h⟩
    · exact ⟨_, st, [], hx, rfl, rfl, by simp, fun _ => ⟨rfl, rfl⟩⟩

theorem getD_responseMessage_zero (st : Status) (echo : Byte) (p : Message) :
    (responseMessage st echo p).getD 0 0 = statusByte st := by
  rw [responseMessage_eq]; rfl

theorem statusByte_ne_zero_iff (st : Status) : statusByte st ≠ 0 ↔ st ≠ .ok := by cases st <;> decide

theorem slice_responseMessage {st : Status} {echo : Byte} {p : Message} (h : p.length < 2 ^ 48) :
    leValue (slice (responseMessage st echo p) 1 6) = p.length := by
  have hs : slice (responseMessage st echo p) 1 6 = leBytes 6 p.length := by
    have := slice_append_middle [statusByte st] (leBytes 6 p.length) (echo :: p)
    rw [responseMessage_eq]
    simpa using this
  rw [hs, leValue_leBytes _ _ h]

theorem getD_responseMessage_seven (st : Status) (echo : Byte) (p : Message) :
    (responseMessage st echo p).getD 7 0 = echo := by
  rw [responseMessage_eq, List.getD_cons_succ, List.getD_append_right _ _ _ _ (by simp)]
  simp

/-- Every effect keeps the canonical form of the memory. -/
theorem EffectOf.wf {i : Instr} {s s' : State} {payload : Message} (h : EffectOf i s s' payload) (hw : s.buf.wf = true) :
    s'.buf.wf = true := by
  cases i with
  | config m k seeds => obtain ⟨-, -, -, -, rfl⟩ := h; rfl
  | setbit j => obtain ⟨-, -, -, rfl⟩ := h; exact Memory.wf_setBit hw _
  | getbit j => obtain ⟨-, -, -, rfl⟩ := h; exact hw
  | add x => obtain ⟨-, -, -, rfl⟩ := h; exact Memory.wf_setBits hw _
  | addv xs => obtain ⟨-, -, -, rfl⟩ := h; exact Memory.wf_setBits hw _
  | has x => obtain ⟨-, -, -, rfl⟩ := h; exact hw
  | clear => obtain ⟨-, -, rfl⟩ := h; exact Memory.wf_zeroBelow hw _
  | serialize => obtain ⟨-, -, -, rfl⟩ := h; exact hw
  | load I => obtain ⟨-, -, rfl⟩ := h; exact Memory.wf_ofBytesAt _ _

end Sys2Proof.Machine
end

