-- ==== Sys2Proof/Laws/PerInstr.lean ====
section
/-! SUPPORT. What holds of the encoding of every command, one lemma per constructor: how long its message is, and what its header says. -/

namespace Sys2Proof.Laws.EncodedHeader

/-- The message of a command is its header and its payload, 8 bytes more than the payload; its first byte is the command's own opcode and
selects no other; its reserved byte is `0x00`; where the payload fits, `plen` says its length (R51, R53). -/
def Statement (i : Instr) : Prop :=
  (encode i).length = 8 + i.payloadLength ∧
  headerOpcode (encode i) = i.op.byte ∧ Op.ofByte (headerOpcode (encode i)) = some i.op ∧
  headerRsv (encode i) = 0x00 ∧
  (i.payloadLength < 2 ^ 48 → headerPlen (encode i) = i.payloadLength)

/-- The one proof behind the lemmas below. -/
theorem of_any (i : Instr) : Statement i :=
  ⟨length_encode i, headerOpcode_encode i, by rw [headerOpcode_encode, Op.ofByte_byte], headerRsv_encode i, headerPlen_encode⟩

theorem config (m : Index) (k : Count) (seeds : List Seed) : Statement (.config m k seeds) := of_any _
theorem setbit (i : Index) : Statement (.setbit i) := of_any _
theorem getbit (i : Index) : Statement (.getbit i) := of_any _
theorem add (item : Message) : Statement (.add item) := of_any _
theorem addv (items : List Message) : Statement (.addv items) := of_any _
theorem has (item : Message) : Statement (.has item) := of_any _
theorem clear : Statement .clear := of_any _
theorem serialize : Statement .serialize := of_any _
theorem load (image : Message) : Statement (.load image) := of_any _

end Sys2Proof.Laws.EncodedHeader
end

