-- ==== Sys2Proof/Tests/Slice0.lean ====
section
/-! SUPPORT. The model's own tests: ill-formed commands refused, the spec's own words decoded and encoded, single steps against the vectors of
spec/95_test_vectors.md, and a witness for the hypotheses of every statement. -/

namespace Sys2Proof.Tests

open Sys2Proof Sys2Proof.Machine

/-! ### WellFormed refuses (one ill-formed command for each check) -/

theorem test_wellFormed_refuses_wrong_seed_count : (Instr.config 20 2 [7]).wellFormed = false := by decide

theorem wellFormed_of_too_long {x : Message} (h : x.length = 2 ^ 48) : (Instr.add x).wellFormed = false := by
  simp only [Instr.wellFormed, Instr.countAgrees, Instr.payloadLength, h]; decide

theorem test_wellFormed_refuses_payload_over_48_bits : ∃ x : Message, x.length = 2 ^ 48 ∧ (Instr.add x).wellFormed = false :=
  ⟨List.replicate (2 ^ 48) 0, List.length_replicate, wellFormed_of_too_long List.length_replicate⟩

theorem test_wellFormed_accepts : (Instr.config 20 2 [7, 7]).wellFormed = true := by decide

/-! ### Decoding and encoding the words of the spec (spec/95_test_vectors.md, spec/30_encoding.md R51, R55 to R63) -/

/-- The message decodes to the command, and the command encodes to the message. -/
def codes (M : Message) (i : Instr) : Bool := decide (decodeTableWord (8 * M.length) (leValue M) = some i) && decide (encode i = M)

theorem test_code_config :
    codes [0x01, 0x10, 0, 0, 0, 0, 0, 0, 0x14, 0, 0, 0, 0, 0, 0x02, 0, 0x01, 0, 0, 0, 0, 0, 0, 0x80]
      (.config 20 2 [0x00000001, 0x80000000]) = true := by decide
theorem test_code_setbit : codes [0x02, 0x06, 0, 0, 0, 0, 0, 0, 0x13, 0, 0, 0, 0, 0] (.setbit 19) = true := by decide
theorem test_code_getbit : codes [0x03, 0x06, 0, 0, 0, 0, 0, 0, 0xFF, 0xFF, 0xFF, 0xFF, 0xFF, 0x7F] (.getbit 0x7FFFFFFFFFFF) = true := by
  decide
theorem test_code_add : codes [0x04, 0x03, 0, 0, 0, 0, 0, 0, 0x61, 0x62, 0x63] (.add [0x61, 0x62, 0x63]) = true := by decide
theorem test_code_addv :
    codes [0x05, 0x1B, 0, 0, 0, 0, 0, 0, 0x03, 0, 0, 0, 0, 0, 0x01, 0, 0, 0, 0, 0, 0x61,
      0x02, 0, 0, 0, 0, 0, 0x62, 0x63, 0, 0, 0, 0, 0, 0] (.addv [[0x61], [0x62, 0x63], []]) = true := by decide
theorem test_code_has : codes [0x06, 0, 0, 0, 0, 0, 0, 0] (.has []) = true := by decide
theorem test_code_clear : codes [0x07, 0, 0, 0, 0, 0, 0, 0] .clear = true := by decide
theorem test_code_serialize : codes [0x08, 0, 0, 0, 0, 0, 0, 0] .serialize = true := by decide
theorem test_code_load :
    codes [0x09, 0x09, 0, 0, 0, 0, 0, 0, 0x01, 0x01, 0, 0, 0, 0, 0, 0, 0] (.load [0x01, 0x01, 0, 0, 0, 0, 0, 0, 0]) = true := by decide

/-- One rejected message for each failing step of R54 and each order the spec fixes among them (spec/95_test_vectors.md section 2.1). -/
def rejects (M : Message) (e : DecodeError) : Bool :=
  match decode M with
  | .error e' => decide (e' = e)
  | .ok _ => false

theorem test_reject_header :
    rejects [] .shortHeader = true ∧ rejects [0x07, 0, 0, 0, 0, 0, 0] .shortHeader = true ∧
    rejects [0x07, 0x01, 0, 0, 0, 0, 0, 0] .lengthMismatch = true ∧ rejects [0x07, 0, 0, 0, 0, 0, 0, 0, 0xAA] .lengthMismatch = true ∧
    rejects [0, 0, 0, 0, 0, 0, 0, 0] .illegalOpcode = true ∧ rejects [0x0A, 0, 0, 0, 0, 0, 0, 0x01] .illegalOpcode = true ∧
    rejects [0xFF, 0x02, 0, 0, 0, 0, 0, 0, 0x01] .lengthMismatch = true ∧
    rejects [0x07, 0, 0, 0, 0, 0, 0, 0x80] .reservedByte = true := by decide

theorem test_reject_shape :
    rejects [0x07, 0x01, 0, 0, 0, 0, 0, 0, 0] .payloadShape = true ∧
    rejects [0x02, 0x05, 0, 0, 0, 0, 0, 0, 0, 0, 0, 0, 0] .payloadShape = true ∧
    rejects [0x01, 0x07, 0, 0, 0, 0, 0, 0, 0x01, 0, 0, 0, 0, 0, 0] .payloadShape = true ∧
    rejects [0x01, 0x08, 0, 0, 0, 0, 0, 0, 0x14, 0, 0, 0, 0, 0, 0x01, 0] .payloadShape = true ∧
    rejects [0x05, 0x0D, 0, 0, 0, 0, 0, 0, 0x01, 0, 0, 0, 0, 0, 0x02, 0, 0, 0, 0, 0, 0x61] .payloadShape = true ∧
    rejects [0x05, 0x07, 0, 0, 0, 0, 0, 0, 0, 0, 0, 0, 0, 0, 0x61] .payloadShape = true := by decide

/-! ### Single commands, on the stand-in engine of spec/95_test_vectors.md (`Htest`, MAXBITS 4096, KMAX 300, ITEMMAX 64) -/

/-- `Htest(x, s) = (s * 2^32 + s + S(x)) mod 2^64`, `S(x)` the sum of `(i + 1) * x[i]`. -/
def htest (x : Message) (s : Seed) : Hash :=
  BitVec.ofNat 64 (s.toNat * 2 ^ 32 + s.toNat + (x.zipIdx.map fun p => (p.2 + 1) * p.1.toNat).sum)

def testEngine : Config := ⟨4095, 300, 64, htest⟩

/-- A configured engine with nothing on its channels. -/
def configured (m : Index) (k : Count) (seeds : List Seed) (buf : Memory) : State :=
  { State.reset with valid := true, bitcount := m, k := k, seeds := seeds, buf := buf }

/-- The engine of section 3.2 after `ADD "bb"`: `BUF = 00 0C 00`. -/
def afterAdd : State := configured 20 2 [0x00000001, 0x80000000] [(1, 0x0C)]

/-- What a command answered, and the buffer it left. -/
def answer : Result → Option (List Message × Memory)
  | .next t => some (t.out, t.buf)
  | .fault _ => none
  | .refused _ => none

-- section 2.2
theorem test_config_replaces :
    configOn testEngine 9 1 [0xFFFFFFFF] afterAdd =
      .next { configured 9 1 [0xFFFFFFFF] [] with out := [[0, 0, 0, 0, 0, 0, 0, 1]] } := by rfl
theorem test_config_capacity : answer (configOn testEngine 4097 0 [] afterAdd) = some ([[5, 0, 0, 0, 0, 0, 0, 1]], [(1, 0x0C)]) := by decide

-- section 2.3
theorem test_setbit_last : answer (execSetbit 19 afterAdd) = some ([[0, 0, 0, 0, 0, 0, 0, 2]], [(1, 0x0C), (2, 0x08)]) := by decide
theorem test_setbit_padding : answer (execSetbit 23 afterAdd) = some ([[6, 0, 0, 0, 0, 0, 0, 2]], [(1, 0x0C)]) := by decide
theorem test_getbit_set : answer (execGetbit 11 afterAdd) = some ([[0, 1, 0, 0, 0, 0, 0, 3, 1]], [(1, 0x0C)]) := by decide
theorem test_getbit_unset : answer (execGetbit 12 afterAdd) = some ([[0, 1, 0, 0, 0, 0, 0, 3, 0]], [(1, 0x0C)]) := by decide

-- section 3.1: a hash above 2^63 reduced as an unsigned number
theorem test_lanes_unsigned : lanes testEngine afterAdd [0x62, 0x62] = [11, 10] ∧ lanes testEngine afterAdd [] = [17, 16] := by decide

-- section 3.2
theorem test_add : answer (addOn testEngine [0x61, 0x62, 0x63] afterAdd) =
    some ([[0, 0, 0, 0, 0, 0, 0, 4]], [(0, 0xC0), (1, 0x0C)]) := by decide
theorem test_has_one_lane_short : answer (hasOn testEngine [0x61, 0x62, 0x64] afterAdd) =
    some ([[0, 1, 0, 0, 0, 0, 0, 6, 0]], [(1, 0x0C)]) := by decide
theorem test_has_member : answer (hasOn testEngine [0x62, 0x62] afterAdd) =
    some ([[0, 1, 0, 0, 0, 0, 0, 6, 1]], [(1, 0x0C)]) := by decide
theorem test_add_too_long : answer (addOn testEngine (List.replicate 65 0x41) afterAdd) =
    some ([[5, 0, 0, 0, 0, 0, 0, 4]], [(1, 0x0C)]) := by decide

-- section 3.3
theorem test_addv : answer (addvOn testEngine [[0x61], [0x62, 0x63], []] (configured 13 3 [7, 7, 0xFFFFFFFF] [])) =
    some ([[0, 0, 0, 0, 0, 0, 0, 5]], [(0, 0x24), (1, 0x0A)]) := by decide
theorem test_addv_none : answer (addvOn testEngine [[0x61], List.replicate 65 0x41] (configured 13 3 [7, 7, 0xFFFFFFFF] [])) =
    some ([[5, 0, 0, 0, 0, 0, 0, 5]], []) := by decide

-- section 2.4: padding bits are cleared too
theorem test_clear_padding : answer (execClear (configured 20 0 [] [(0, 0xFF), (1, 0xFF), (2, 0xFF)])) =
    some ([[0, 0, 0, 0, 0, 0, 0, 7]], []) := by decide

-- section 2.5: images I1 and I3
theorem test_serialize : answer (execSerialize afterAdd) =
    some ([[0, 0x13, 0, 0, 0, 0, 0, 8, 0x01, 0x14, 0, 0, 0, 0, 0, 0x02, 0x01, 0, 0, 0, 0, 0, 0, 0x80, 0, 0x0C, 0]], [(1, 0x0C)]) := by decide
theorem test_serialize_seed_overflow :
    answer (execSerialize (configured 8 256 [] [])) = some ([[8, 0, 0, 0, 0, 0, 0, 8]], []) := by decide
theorem test_load_verbatim :
    loadOn testEngine [0x01, 0x0C, 0, 0, 0, 0, 0, 0x01, 0xEF, 0xBE, 0xAD, 0xDE, 0x55, 0xF5] State.reset =
      .next { configured 12 1 [0xDEADBEEF] [(0, 0x55), (1, 0xF5)] with out := [[0, 0, 0, 0, 0, 0, 0, 9]] } := by rfl
theorem test_load_version_before_length : answer (loadOn testEngine [0xFF] afterAdd) = some ([[7, 0, 0, 0, 0, 0, 0, 9]], [(1, 0x0C)]) := by
  decide

/-! ### The host's questions about a row: the word as the first command after reset -/

theorem test_step_runs_the_word :
    step (State.reset.withFetchWord 64 0x07) = .next { State.reset with out := [[3, 0, 0, 0, 0, 0, 0, 7]] } := by rfl
theorem test_step_answers_the_zero_header :
    step (State.reset.withFetchWord 64 0x00) = .next { State.reset with out := [[1, 0, 0, 0, 0, 0, 0, 0]] } := by rfl

/-! ### Witnesses: a concrete input for the hypotheses of each statement, clause by clause -/

/-- The smallest Filter, `m = 1`, no seed: within the capacities of every engine. -/
def smallest : State := configured 1 0 [] []

/-- The engine of Config can do this whatever its parameters are. -/
theorem smallest_fits : (1 : Index).toNat ≤ Config.engine.maxBits ∧ (0 : Count).toNat ≤ Config.engine.kMax.toNat :=
  ⟨Config.engine.maxBits_pos, Nat.zero_le _⟩

/-- The smallest image (I2 of spec/95_test_vectors.md section 2.5). -/
def smallestImage : Message := [0x01, 0x01, 0, 0, 0, 0, 0, 0, 0x00]

theorem smallestImage_loads : imageStatus Config.engine smallestImage = .ok :=
  (imageStatus_ok_iff _ _).2 ⟨rfl, by decide, by decide, by decide, Config.engine.maxBits_pos, Nat.zero_le _⟩

theorem config_completes (s : State) : ∃ t, CompletesOk (.config 1 0 []) s t :=
  ⟨_, completesOk_iff.2 ⟨_, _, ⟨by decide, smallest_fits.1, smallest_fits.2, rfl, rfl⟩, rfl⟩⟩

theorem load_completes (s : State) : ∃ t, CompletesOk (.load smallestImage) s t :=
  ⟨_, completesOk_iff.2 ⟨_, _, ⟨smallestImage_loads, rfl, rfl⟩, rfl⟩⟩

theorem setbit_completes : ∃ t, CompletesOk (.setbit 0) smallest t :=
  ⟨_, completesOk_iff.2 ⟨_, _, ⟨rfl, by decide, rfl, rfl⟩, rfl⟩⟩

theorem add_completes : ∃ t, CompletesOk (.add []) smallest t :=
  ⟨_, completesOk_iff.2 ⟨_, _, ⟨rfl, Nat.zero_le _, rfl, rfl⟩, rfl⟩⟩

theorem addv_completes : ∃ t, CompletesOk (.addv [[], []]) smallest t :=
  ⟨_, completesOk_iff.2 ⟨_, _, ⟨rfl, by simp, rfl, rfl⟩, rfl⟩⟩

theorem clear_completes (s : State) (h : s.valid = true) : ∃ t, CompletesOk .clear s t :=
  ⟨_, completesOk_iff.2 ⟨_, _, ⟨h, rfl, rfl⟩, rfl⟩⟩

/-- An item longer than any engine accepts: `ITEMMAX` is at most `2^48 - 1` (R7). -/
theorem too_long_item : ∃ x : Message, Config.engine.itemMax.toNat < x.length :=
  ⟨List.replicate (2 ^ 48) 0, Nat.lt_of_lt_of_eq Config.engine.itemMax.isLt List.length_replicate.symm⟩

/-- A state whose host sends one message, `CLEAR`, to an unconfigured engine: it is answered with a fault. -/
def faulting : State := { State.reset with inbox := [.command [0x07, 0, 0, 0, 0, 0, 0, 0]] }

theorem witness_ResetEventClearsValid :
    ({ smallest with inbox := [.reset, .reset] } : State).inbox = .reset :: [.reset] ∧
    ({ smallest with inbox := [.commandCut []] } : State).inbox = .commandCut [] :: [] := by decide

theorem witness_IdleEngineWaits : smallest.inbox = [] := by decide

theorem witness_StepRunsDecodedCommand :
    faulting.inbox = [.command (encode .clear)] ∧ decode (encode .clear) = .ok .clear := ⟨by decide, rfl⟩

/-- `OneFramedResponsePerCommand` and `FaultChangesNothing`: a message, also one answered with a status other than `0x00`. -/
theorem witness_FaultChangesNothing :
    faulting.inbox = .command [0x07, 0, 0, 0, 0, 0, 0, 0] :: [] ∧
    step faulting = .next { State.reset with out := [[0x03, 0, 0, 0, 0, 0, 0, 0x07]] } := ⟨by decide, rfl⟩

theorem witness_ValidChangesOnlySo :
    (step { smallest with inbox := [.reset] } = .next State.reset ∧ smallest.valid = true ∧ State.reset.valid = false) ∧
    (∃ t, CompletesOk (.config 1 0 []) State.reset t) ∧ (∃ t, CompletesOk (.load smallestImage) State.reset t) :=
  ⟨⟨rfl, rfl, rfl⟩, config_completes _, load_completes _⟩

/-- The second clause of `ValidChangesOnlySo` on a step. -/
theorem witness_ValidChangesOnlySo_step :
    ∃ t, step { State.reset with inbox := [.command (encode (.config 1 0 []))] } = .next t ∧ t.valid = true := by
  refine ⟨_, (step_command rfl).trans ((takeCommand_ok (i := .config 1 0 []) rfl _).trans (exec_of_effect ⟨?_, ?_, ?_, rfl, rfl⟩)), rfl⟩
  · decide
  · exact smallest_fits.1
  · exact smallest_fits.2

theorem witness_DecodeOfEncode :
    (Instr.setbit 0xFFFFFFFFFFFF).wellFormed = true ∧ (Instr.addv [[], [0xFF]]).wellFormed = true ∧
    (Instr.config 0 1 [0xFFFFFFFF]).wellFormed = true := by decide

theorem witness_EncodeOfDecode : decode [0x03, 0x06, 0, 0, 0, 0, 0, 0, 0xFF, 0xFF, 0xFF, 0xFF, 0xFF, 0xFF] = .ok (.getbit 0xFFFFFFFFFFFF) := by
  rfl

/-- `DecodeStepsInOrder`, clause by clause: seven bytes; a length field one too large; the opcodes `0x00` and `0x0A`; `rsv = 0x80`; one payload
byte too many; a command. -/
theorem witness_DecodeStepsInOrder :
    ([0x07, 0, 0, 0, 0, 0, 0] : Message).length < 8 ∧
    (let M : Message := [0x07, 1, 0, 0, 0, 0, 0, 0]; 8 ≤ M.length ∧ M.length ≠ 8 + leValue (slice M 1 6)) ∧
    (let M : Message := [0x00, 0, 0, 0, 0, 0, 0, 0]; M.length = 8 + leValue (slice M 1 6) ∧ M.getD 0 0 = 0x00) ∧
    (let M : Message := [0x0A, 0, 0, 0, 0, 0, 0, 0]; M.length = 8 + leValue (slice M 1 6) ∧ 0x0A ≤ (M.getD 0 0).toNat) ∧
    (let M : Message := [0x07, 0, 0, 0, 0, 0, 0, 0x80]; M.length = 8 + leValue (slice M 1 6) ∧ M.getD 0 0 = Op.clear.byte ∧ M.getD 7 0 ≠ 0) ∧
    (let M : Message := [0x07, 1, 0, 0, 0, 0, 0, 0, 0]
     M.length = 8 + leValue (slice M 1 6) ∧ M.getD 0 0 = Op.clear.byte ∧ M.getD 7 0 = 0 ∧ decodePayload .clear (M.drop 8) = none) ∧
    (let M : Message := [0x07, 0, 0, 0, 0, 0, 0, 0]
     M.length = 8 + leValue (slice M 1 6) ∧ M.getD 0 0 = Op.clear.byte ∧ M.getD 7 0 = 0 ∧ decodePayload .clear (M.drop 8) = some .clear) := by
  decide

theorem witness_ConfigOperandAssembly :
    decodePayload .config [0xFF, 0xFF, 0xFF, 0xFF, 0xFF, 0xFF, 1, 0, 0, 0, 0, 0x80] = some (.config 0xFFFFFFFFFFFF 1 [0x80000000]) ∧
    0 < (1 : Count).toNat := by decide

theorem witness_StepKeepsInvariant :
    smallest.Inv ∧ step { smallest with inbox := [.command (encode (.setbit 0))] } =
      .next { configured 1 0 [] [(0, 0x01)] with out := [[0, 0, 0, 0, 0, 0, 0, 2]] } :=
  ⟨⟨rfl, fun _ => by decide, fun _ => Config.engine.maxBits_pos, fun _ => Nat.zero_le _, fun _ => rfl, by simp [smallest, configured]⟩, rfl⟩

/-- `OnlyConfigAndLoadReconfigure`, `ResponsePayloads`: a `GETBIT` answered `OK`, and one answered with a fault. -/
theorem witness_exec :
    exec (.getbit 0) smallest = .next (smallest.emit (responseMessage .ok 0x03 [0x00])) ∧
    exec (.getbit 1) smallest = .next (smallest.emit (responseMessage .range 0x03 [])) ∧
    exec .serialize smallest = .next (smallest.emit (responseMessage .ok 0x08 smallestImage)) := ⟨rfl, rfl, rfl⟩

theorem witness_UnconfiguredEngineFaults :
    State.reset.valid = false ∧ (Instr.getbit 0).op ≠ .config ∧ (Instr.getbit 0).op ≠ .load ∧
    (∃ t, exec (.config 1 0 []) State.reset = .next t) ∧ (∃ t, exec (.load smallestImage) State.reset = .next t) :=
  ⟨rfl, by decide, by decide, (config_completes _).imp fun _ h => h.1, (load_completes _).imp fun _ h => h.1⟩

theorem witness_StatusesPerCommand : decode [] = .error .shortHeader ∧ decode [0, 0, 0, 0, 0, 0, 0, 0] = .error .illegalOpcode := ⟨rfl, rfl⟩

theorem witness_ConfigAndLoadReplaceFilterWhole :
    (∃ t, CompletesOk (.config 1 0 []) afterAdd t) ∧ (∃ t, CompletesOk (.load smallestImage) afterAdd t) ∧
    State.reset.inbox = afterAdd.inbox ∧ State.reset.out = afterAdd.out := ⟨config_completes _, load_completes _, rfl, rfl⟩

/-- `NoAccessOutsideBuffer`, clause by clause: the byte just past the buffer; `CONFIG` and `LOAD`; the last index; a lane in the last byte; a memory
that differs just past the buffer alone. -/
theorem witness_NoAccessOutsideBuffer :
    (smallest.buf.wf = true ∧ 1 ≤ smallest.bitcount.toNat ∧ ceil8 smallest.bitcount.toNat = 1 ∧
      exec (.setbit 0) smallest = .next (({ smallest with buf := [(0, 0x01)] } : State).emit [0, 0, 0, 0, 0, 0, 0, 2])) ∧
    (∃ t, CompletesOk (.config 1 0 []) afterAdd t) ∧ (∃ t, CompletesOk (.load smallestImage) afterAdd t) ∧
    (∃ t, CompletesOk (.setbit 19) afterAdd t) ∧ (∃ t, CompletesOk (.getbit 19) afterAdd t) ∧ afterAdd.bitcount.toNat = 20 ∧
    17 ∈ lanes testEngine afterAdd [] ∧
    afterAdd.buf.wf = true ∧ Memory.wf [(1, 0x0C), (3, 0xFF)] = true ∧
    (∀ a, a < ceil8 afterAdd.bitcount.toNat → Memory.read [(1, 0x0C), (3, 0xFF)] a = afterAdd.buf.read a) ∧
    Memory.read [(1, 0x0C), (3, 0xFF)] (ceil8 afterAdd.bitcount.toNat) ≠ afterAdd.buf.read (ceil8 afterAdd.bitcount.toNat) :=
  ⟨⟨rfl, by decide, by decide, rfl⟩, config_completes _, load_completes _,
    ⟨_, completesOk_iff.2 ⟨_, _, ⟨rfl, by decide, rfl, rfl⟩, rfl⟩⟩, ⟨_, completesOk_iff.2 ⟨_, _, ⟨rfl, by decide, rfl, rfl⟩, rfl⟩⟩,
    by decide, by decide, rfl, by decide, by decide, by decide⟩

/-- Equal engines that are not equal states: a byte beyond the live buffer and a seed beyond `K` differ. -/
theorem witness_EqualFiltersAnswerAlike :
    let t : State := { smallest with buf := [(1, 0xFF)], seeds := [7] }
    smallest.buf.wf = true ∧ t.buf.wf = true ∧ 1 ≤ smallest.bitcount.toNat ∧ smallest.Indistinguishable t ∧ smallest ≠ t :=
  ⟨rfl, rfl, by decide, ⟨⟨rfl, fun _ => rfl⟩, rfl, rfl⟩, by decide⟩

/-- `ConfigChecksAndEffect`, clause by clause, `m = 0` and then at the capacities; `KMAX = 0` on the third. -/
theorem witness_ConfigChecksAndEffect :
    (([] : List Seed).length = (0 : Count).toNat ∧ configOn testEngine 0 0 [] afterAdd = .next (afterAdd.emit [0x04, 0, 0, 0, 0, 0, 0, 0x01])) ∧
    (4097 : Index) ≠ 0 ∧ testEngine.maxBits < (4097 : Index).toNat ∧ (4096 : Index) ≠ 0 ∧
    (4096 : Index).toNat ≤ testEngine.maxBits ∧ (0 : Count).toNat ≤ testEngine.kMax.toNat ∧
    ([7] : List Seed).length = (1 : Count).toNat ∧ (⟨0, 0, 0, htest⟩ : Config).kMax.toNat < (1 : Count).toNat ∧
    (1 : Index).toNat ≤ (⟨0, 0, 0, htest⟩ : Config).maxBits := ⟨⟨rfl, rfl⟩, by decide⟩

theorem witness_ConfigCompletes :
    ([] : List Seed).length = (0 : Count).toNat ∧ 1 ≤ (1 : Index).toNat ∧ (1 : Index).toNat ≤ Config.engine.maxBits ∧
    (0 : Count).toNat ≤ Config.engine.kMax.toNat := ⟨rfl, by decide, smallest_fits.1, smallest_fits.2⟩

theorem witness_MapperIsDivisionByEight :
    281474976710654 < (0xFFFFFFFFFFFF : Index).toNat ∧ byteIndex 281474976710654 = 35184372088831 ∧ 7 < 8 := by decide

/-- `SetbitEffect` and `GetbitAnswer`: unconfigured; the first index out of range; the last one in range. -/
theorem witness_SetbitEffect :
    afterAdd.buf.wf = true ∧ State.reset.valid = false ∧ afterAdd.valid = true ∧ afterAdd.bitcount.toNat ≤ (20 : Index).toNat ∧
    (19 : Index).toNat < afterAdd.bitcount.toNat := by decide

theorem witness_BitRoundTrip :
    (∃ t, CompletesOk (.config 1 0 []) afterAdd t) ∧ (∃ t, CompletesOk .clear afterAdd t) ∧ afterAdd.buf.wf = true ∧
    (∃ t, CompletesOk (.setbit 0) smallest t ∧ KeepsBits t t) ∧ (0 : Index) ≠ 19 ∧ (0 : Index).toNat < afterAdd.bitcount.toNat ∧
    (∃ t, CompletesOk (.setbit 19) afterAdd t) ∧
    exec (.getbit 0) afterAdd = .next (afterAdd.emit [0, 1, 0, 0, 0, 0, 0, 3, 0]) :=
  ⟨config_completes _, clear_completes _ rfl, rfl, setbit_completes.imp fun t h => ⟨h, .here t⟩, by decide, by decide,
    ⟨_, completesOk_iff.2 ⟨_, _, ⟨rfl, by decide, rfl, rfl⟩, rfl⟩⟩, rfl⟩

/-- A run that keeps bits and is not empty: a faulting command and an idle step. -/
theorem witness_KeepsBits : ∃ t, KeepsBits faulting t ∧ t ≠ faulting := by
  refine ⟨_, .after (.here faulting) ?_ rfl, by decide⟩
  rintro ⟨i, t, hd, -, hc⟩
  cases (show Except.ok Instr.clear = Except.ok i from hd)
  obtain ⟨s', p, he, -⟩ := completesOk_iff.1 hc
  exact absurd he.1 (by decide)

theorem witness_LanesAreHashRemainders :
    1 ≤ afterAdd.bitcount.toNat ∧ 1 < afterAdd.k.toNat ∧ (configured 8 1 [7] []).bitcount.toNat = 2 ^ 3 ∧
    0 < (configured 8 1 [7] []).k.toNat := by decide

theorem witness_MemoryAccesses :
    Memory.wf [(1, 0x0C)] = true ∧ (0 : Nat) ≠ 1 ∧ Memory.write [(1, 0x0C)] 1 0x00 = [] ∧
    Memory.write [(1, 0x0C)] 0 0x80 = [(0, 0x80), (1, 0x0C)] := by decide

/-- `AddEffect`, `AddvSetsLanesOfEveryItem`: the empty item is within every `ITEMMAX`. -/
theorem witness_AddEffect :
    afterAdd.buf.wf = true ∧ afterAdd.valid = true ∧ ([] : Message).length ≤ Config.engine.itemMax.toNat ∧
    ∀ x ∈ ([[], []] : List Message), x.length ≤ Config.engine.itemMax.toNat := ⟨rfl, rfl, Nat.zero_le _, by simp⟩

theorem witness_LaneOrderUnobservable : Memory.wf [(1, 0x0C)] = true ∧ List.Perm [11, 10] [10, 11] := ⟨rfl, .swap _ _ _⟩

/-- `InsertionIdempotentCommutingMonotone`; the last clause is met by a `CLEAR`. -/
theorem witness_InsertionIdempotentCommutingMonotone :
    (∃ t, CompletesOk (.add []) smallest t) ∧ smallest.buf.wf = true ∧ smallest.valid = true ∧
    ([] : Message).length ≤ Config.engine.itemMax.toNat ∧
    exec .clear afterAdd = .next (({ afterAdd with buf := [] } : State).emit [0, 0, 0, 0, 0, 0, 0, 7]) ∧
    afterAdd.buf.bit 10 = true ∧ Memory.bit [] 10 = false := ⟨add_completes, rfl, rfl, Nat.zero_le _, rfl, by decide, by decide⟩

/-- `AddEffect`, `AddvIsAddInOrder`, `HasAnswer`: a payload that does not parse; unconfigured; an item too long; items that fit. -/
theorem witness_AddvIsAddInOrder :
    (let M : Message := [0x05, 7, 0, 0, 0, 0, 0, 0, 0, 0, 0, 0, 0, 0, 0x61]
     8 ≤ M.length ∧ M.length = 8 + leValue (slice M 1 6) ∧ M.getD 0 0 = 0x05 ∧ M.getD 7 0 = 0x00 ∧
       decodePayload .addv (M.drop 8) = none) ∧
    State.reset.valid = false ∧ afterAdd.valid = true ∧ (∃ items : List Message, ∃ x ∈ items, Config.engine.itemMax.toNat < x.length) ∧
    ∀ x ∈ ([[], []] : List Message), x.length ≤ Config.engine.itemMax.toNat := by
  obtain ⟨x, h⟩ := too_long_item
  exact ⟨by decide, rfl, rfl, ⟨[x], x, by simp, h⟩, by simp⟩

theorem witness_NoSeedsMeansEverythingIsMember :
    smallest.valid = true ∧ smallest.k = 0 ∧ ([] : Message).length ≤ Config.engine.itemMax.toNat := ⟨rfl, rfl, Nat.zero_le _⟩

theorem witness_NoFalseNegatives :
    smallest.buf.wf = true ∧
    (∃ t, CompletesOk (.add []) smallest t ∧ KeepsBits t t ∧
      exec .serialize t = .next (t.emit (responseMessage .ok 0x08 smallestImage)) ∧ ∃ w, CompletesOk (.load smallestImage) State.reset w) ∧
    ∃ t, [] ∈ ([[], []] : List Message) ∧ CompletesOk (.addv [[], []]) smallest t ∧ KeepsBits t t :=
  ⟨rfl, ⟨_, completesOk_iff.2 ⟨_, _, ⟨rfl, Nat.zero_le _, rfl, rfl⟩, rfl⟩, .here _, rfl, load_completes _⟩,
    addv_completes.imp fun t h => ⟨by simp, h, .here t⟩⟩

/-- `ExceededCapacityFaults`, clause by clause, one past each capacity; the two image clauses on an engine of 8 bits and no seed. -/
theorem witness_ExceededCapacityFaults :
    (4097 : Index) ≠ 0 ∧ testEngine.maxBits < (4097 : Index).toNat ∧ testEngine.kMax.toNat < (301 : Count).toNat ∧
    (let c : Config := ⟨7, 0, 0, htest⟩
     let I : Message := [0x01, 9, 0, 0, 0, 0, 0, 0, 0, 0]
     I.getD 0 0 = 0x01 ∧ 8 + 4 * (I.getD 7 0).toNat ≤ I.length ∧ leValue (slice I 1 6) ≠ 0 ∧
       I.length = 8 + 4 * (I.getD 7 0).toNat + ceil8 (leValue (slice I 1 6)) ∧ c.maxBits < leValue (slice I 1 6)) ∧
    (let c : Config := ⟨7, 0, 0, htest⟩
     let I : Message := [0x01, 8, 0, 0, 0, 0, 0, 1, 7, 0, 0, 0, 0]
     I.getD 0 0 = 0x01 ∧ 8 + 4 * (I.getD 7 0).toNat ≤ I.length ∧ leValue (slice I 1 6) ≠ 0 ∧
       I.length = 8 + 4 * (I.getD 7 0).toNat + ceil8 (leValue (slice I 1 6)) ∧ c.kMax.toNat < (I.getD 7 0).toNat) ∧
    afterAdd.valid = true ∧ testEngine.itemMax.toNat < (List.replicate 65 (0x41 : Byte)).length := by decide

theorem witness_ClearEffect : State.reset.valid = false ∧ afterAdd.valid = true ∧ 2 < ceil8 afterAdd.bitcount.toNat := by decide

/-- `ClearResetsAnswers`: with two seeds and with none. -/
theorem witness_ClearResetsAnswers :
    1 ≤ afterAdd.bitcount.toNat ∧ (∃ t, CompletesOk .clear afterAdd t ∧ 1 ≤ t.k.toNat ∧ (19 : Index).toNat < t.bitcount.toNat) ∧
    (∃ t, CompletesOk .clear smallest t ∧ t.k = 0) ∧ ([] : Message).length ≤ Config.engine.itemMax.toNat :=
  ⟨by decide, ⟨_, completesOk_iff.2 ⟨_, _, ⟨rfl, rfl, rfl⟩, rfl⟩, by decide, by decide⟩,
    ⟨_, completesOk_iff.2 ⟨_, _, ⟨rfl, rfl, rfl⟩, rfl⟩, by decide⟩, Nat.zero_le _⟩

/-- `PaddingBits`, clause by clause: bits 1 to 7 of the smallest Filter are padding; a memory that differs there alone. -/
theorem witness_PaddingBits :
    (∃ t, CompletesOk (.config 1 0 []) afterAdd t ∧ t.bitcount.toNat ≤ 7 ∧ 7 < 8 * ceil8 t.bitcount.toNat) ∧
    (∃ t, CompletesOk (.load smallestImage) afterAdd t ∧ t.bitcount.toNat ≤ 7 ∧ 7 < 8 * ceil8 t.bitcount.toNat) ∧
    (∃ t, CompletesOk (.setbit 0) smallest t) ∧ smallest.buf.wf = true ∧ smallest.bitcount.toNat ≤ 7 ∧
    exec .serialize smallest = .next (smallest.emit (responseMessage .ok 0x08 smallestImage)) ∧
    (∀ n, n < smallest.bitcount.toNat → Memory.bit [(0, 0xFE)] n = smallest.buf.bit n) ∧ Memory.bit [(0, 0xFE)] 7 ≠ smallest.buf.bit 7 :=
  ⟨⟨_, completesOk_iff.2 ⟨_, _, ⟨by decide, smallest_fits.1, smallest_fits.2, rfl, rfl⟩, rfl⟩, by decide, by decide⟩,
    ⟨_, completesOk_iff.2 ⟨_, _, ⟨smallestImage_loads, rfl, rfl⟩, rfl⟩, by decide, by decide⟩,
    setbit_completes, rfl, by decide, rfl, by decide, by decide⟩

theorem witness_SerializeAnswer :
    State.reset.valid = false ∧ (configured 8 256 [] []).valid = true ∧ 255 < (configured 8 256 [] []).k.toNat ∧
    (configured 8 255 [] []).valid = true ∧ (configured 8 255 [] []).k.toNat ≤ 255 := by decide

/-- `LoadChecksAndEffect`, clause by clause: each image passes every check before its own. -/
theorem witness_LoadChecksAndEffect :
    let c : Config := ⟨7, 0, 0, htest⟩
    let passes (I : Message) (upTo : Nat) : Bool :=
      ([I.length ≠ 0, I.getD 0 0 = 0x01, 8 ≤ I.length, 8 + 4 * (I.getD 7 0).toNat ≤ I.length, leValue (slice I 1 6) ≠ 0,
        I.length - 8 - 4 * (I.getD 7 0).toNat = ceil8 (leValue (slice I 1 6)), leValue (slice I 1 6) ≤ c.maxBits,
        (I.getD 7 0).toNat ≤ c.kMax.toNat] : List Bool).take upTo = List.replicate upTo true
    let stopsAt (I : Message) (n : Nat) : Bool := passes I n && !passes I (n + 1)
    stopsAt [] 0 ∧ stopsAt [0xFF] 1 ∧ stopsAt [0x01, 0, 0, 0, 0, 0, 0] 2 ∧ stopsAt [0x01, 20, 0, 0, 0, 0, 0, 2] 3 ∧
    stopsAt [0x01, 0, 0, 0, 0, 0, 0, 0, 0] 4 ∧ stopsAt [0x01, 9, 0, 0, 0, 0, 0, 0, 0] 5 ∧ stopsAt [0x01, 9, 0, 0, 0, 0, 0, 0, 0, 0] 6 ∧
    stopsAt [0x01, 8, 0, 0, 0, 0, 0, 1, 7, 0, 0, 0, 0] 7 ∧ passes [0x01, 8, 0, 0, 0, 0, 0, 0, 0] 8 := by decide

theorem witness_LoadCompletes :
    smallestImage.getD 0 0 = 0x01 ∧ leValue (slice smallestImage 1 6) ≠ 0 ∧
    smallestImage.length = 8 + 4 * (smallestImage.getD 7 0).toNat + ceil8 (leValue (slice smallestImage 1 6)) ∧
    leValue (slice smallestImage 1 6) ≤ Config.engine.maxBits ∧ (smallestImage.getD 7 0).toNat ≤ Config.engine.kMax.toNat :=
  ⟨by decide, by decide, by decide, Config.engine.maxBits_pos, Nat.zero_le _⟩

theorem witness_SerializeThenLoadRestoresFilter :
    afterAdd.valid = true ∧ 1 ≤ afterAdd.bitcount.toNat ∧ afterAdd.k.toNat ≤ 255 ∧
    afterAdd.bitcount.toNat ≤ testEngine.maxBits ∧ afterAdd.k.toNat ≤ testEngine.kMax.toNat := by decide

theorem witness_LoadThenSerializeReturnsImage : ∃ t, CompletesOk (.load smallestImage) State.reset t := load_completes _

end Sys2Proof.Tests
end

section
/-! ### Parameters -/

open Sys2Proof

/-- Settles O1: `MAXBITS` by its two bounds in the laws of `Config`, `KMAX` and `ITEMMAX` by the widths of their fields. -/
theorem capacitiesInRange : Obligations.CapacitiesInRange := by
  intro c
  have hMaxBits : c.maxBits ≤ 2 ^ 48 - 1 := Nat.le_sub_one_of_lt c.maxBits_lt
  have hKMax : c.kMax.toNat ≤ 65535 := Nat.le_of_lt_succ c.kMax.isLt
  have hItemMax : c.itemMax.toNat ≤ 2 ^ 48 - 1 := Nat.le_sub_one_of_lt c.itemMax.isLt
  exact ⟨⟨c.maxBits_pos, hMaxBits⟩, hKMax, hItemMax⟩

end

section
/-! ### The effect of a command: what it keeps, where it stores, and that it keeps the invariant -/

namespace Sys2Proof.Machine

namespace State

/-- Of an engine without a Filter the invariant asks for the canonical form alone. -/
theorem inv_of_canonical {s : State} (hw : s.buf.wf = true) (h : s.valid = true → s.Inv) : s.Inv where
  canonical := hw
  bitcountPositive hv := (h hv).bitcountPositive hv
  bitcountFits hv := (h hv).bitcountFits hv
  countFits hv := (h hv).countFits hv
  seedsCounted hv := (h hv).seedsCounted hv
  bufInside hv := (h hv).bufInside hv

/-- The invariant says nothing of the two channels. -/
theorem Inv.with_channels {s : State} (h : s.Inv) (inbox : List HostEvent) (out : List Message) :
    ({ s with inbox := inbox, out := out } : State).Inv :=
  ⟨h.canonical, h.bitcountPositive, h.bitcountFits, h.countFits, h.seedsCounted, h.bufInside⟩

end State

/-- The indices whose bits a command sets (R92, R111, R114); none for a command that does not insert. -/
def storedBits (i : Instr) (s : State) : List Nat :=
  match i with
  | .setbit j => [j.toNat]
  | .add x => lanes Config.engine s x
  | .addv xs => xs.flatMap (lanes Config.engine s)
  | _ => []

namespace EffectOf

variable {i : Instr} {s s' : State} {payload : Message}

/-- Only `CONFIG` and `LOAD` have an effect without a Filter, and only they change anything but `BUF` (R17, R175). -/
theorem keeps_registers (h : EffectOf i s s' payload) (hc : i.op ≠ .config) (hl : i.op ≠ .load) :
    s.valid = true ∧ s' = { s with buf := s'.buf } := by
  cases i with
  | config m k seeds => exact absurd rfl hc
  | setbit j => obtain ⟨hv, -, -, rfl⟩ := h; exact ⟨hv, rfl⟩
  | getbit j => obtain ⟨hv, -, -, rfl⟩ := h; exact ⟨hv, rfl⟩
  | add x => obtain ⟨hv, -, -, rfl⟩ := h; exact ⟨hv, rfl⟩
  | addv xs => obtain ⟨hv, -, -, rfl⟩ := h; exact ⟨hv, rfl⟩
  | has x => obtain ⟨hv, -, -, rfl⟩ := h; exact ⟨hv, rfl⟩
  | clear => obtain ⟨hv, -, rfl⟩ := h; exact ⟨hv, rfl⟩
  | serialize => obtain ⟨hv, -, -, rfl⟩ := h; exact ⟨hv, rfl⟩
  | load I => exact absurd rfl hl

/-- After any command answered `OK` there is a Filter (R11). -/
theorem valid (h : EffectOf i s s' payload) : s'.valid = true := by
  by_cases hop : i.op = .config ∨ i.op = .load
  · cases i with
    | config m k seeds => obtain ⟨-, -, -, -, rfl⟩ := h; rfl
    | load I => obtain ⟨-, -, rfl⟩ := h; rfl
    | _ => simp [Instr.op] at hop
  · obtain ⟨hc, hl⟩ := not_or.1 hop
    obtain ⟨hv, hs⟩ := h.keeps_registers hc hl
    rw [hs]; exact hv

/-- `GETBIT`, `HAS` and `SERIALIZE` change nothing. -/
theorem eq_of_reads (h : EffectOf i s s' payload) (hop : i.op = .getbit ∨ i.op = .has ∨ i.op = .serialize) : s' = s := by
  cases i with
  | getbit j => obtain ⟨-, -, -, rfl⟩ := h; rfl
  | has x => obtain ⟨-, -, -, rfl⟩ := h; rfl
  | serialize => obtain ⟨-, -, -, rfl⟩ := h; rfl
  | _ => simp [Instr.op] at hop

/-- The only writes to the buffer of a kept Filter are `CLEAR`'s zeros and the bits that insertion sets. -/
theorem buf_cases (h : EffectOf i s s' payload) (hc : i.op ≠ .config) (hl : i.op ≠ .load) :
    i.op = .clear ∧ s'.buf = s.buf.zeroBelow s.liveBytes ∨
    i.op ≠ .clear ∧ s'.buf = s.buf.setBits (storedBits i s) := by
  cases i with
  | config m k seeds => exact absurd rfl hc
  | setbit j => obtain ⟨-, -, -, rfl⟩ := h; exact .inr ⟨nofun, rfl⟩
  | getbit j => obtain ⟨-, -, -, rfl⟩ := h; exact .inr ⟨nofun, rfl⟩
  | add x => obtain ⟨-, -, -, rfl⟩ := h; exact .inr ⟨nofun, rfl⟩
  | addv xs => obtain ⟨-, -, -, rfl⟩ := h; exact .inr ⟨nofun, rfl⟩
  | has x => obtain ⟨-, -, -, rfl⟩ := h; exact .inr ⟨nofun, rfl⟩
  | clear => obtain ⟨-, -, rfl⟩ := h; exact .inl ⟨rfl, rfl⟩
  | serialize => obtain ⟨-, -, -, rfl⟩ := h; exact .inr ⟨nofun, rfl⟩
  | load I => exact absurd rfl hl

/-- Every bit a command sets is one of the Filter's (R93, R102). -/
theorem storedBits_lt (h : EffectOf i s s' payload) (hm : 1 ≤ s.bitcount.toNat) :
    ∀ n ∈ storedBits i s, n < s.bitcount.toNat := by
  intro n hn
  cases i with
  | setbit j =>
    obtain ⟨-, hj, -⟩ := h
    rw [storedBits, List.mem_singleton] at hn
    exact hn ▸ hj
  | add x => exact lanes_lt hm hn
  | addv xs =>
    obtain ⟨x, -, hx⟩ := List.mem_flatMap.1 hn
    exact lanes_lt hm hx
  | _ => simp [storedBits] at hn

/-- A command that keeps the Filter leaves every byte at or beyond the end of the live buffer as it was (R35). -/
theorem read_outside (h : EffectOf i s s' payload) (hc : i.op ≠ .config) (hl : i.op ≠ .load) (hw : s.buf.wf = true)
    (hm : 1 ≤ s.bitcount.toNat) {a : Nat} (ha : s.liveBytes ≤ a) : s'.buf.read a = s.buf.read a := by
  rcases h.buf_cases hc hl with ⟨-, hb⟩ | ⟨-, hb⟩
  · rw [hb, Memory.read_zeroBelow, if_neg (by omega)]
  · rw [hb]
    refine Memory.read_setBits_of_not_addressed hw fun n hn => ?_
    have : n / 8 < s.liveBytes := div_lt_ceil8 (h.storedBits_lt hm n hn)
    omega

/-- `CONFIG` and `LOAD` list no byte outside the new live buffer (log 7). -/
theorem inside_of_replaces (h : EffectOf i s s' payload) (hop : i.op = .config ∨ i.op = .load) :
    ∀ c ∈ s'.buf, c.1 < s'.liveBytes := by
  cases i with
  | config m k seeds => obtain ⟨-, -, -, -, rfl⟩ := h; simp
  | load I =>
    obtain ⟨hI, -, rfl⟩ := h
    obtain ⟨-, -, -, hlen, -⟩ := (imageStatus_ok_iff _ _).1 hI
    rw [State.liveBytes, toNat_imageBitCount, ← hlen]
    exact Memory.inside_ofBytesAt _
  | _ => simp [Instr.op] at hop

/-- `CONFIG` and `LOAD` check what the invariant asks for before they write (R82, R138). -/
theorem inv_of_replaces (h : EffectOf i s s' payload) (hop : i.op = .config ∨ i.op = .load) (hk : i.countAgrees = true) :
    s'.Inv := by
  have hin := h.inside_of_replaces hop
  cases i with
  | config m k seeds =>
    obtain ⟨hm, hmax, hkmax, -, rfl⟩ := h
    have hm' : m.toNat ≠ 0 := fun h0 => hm (BitVec.eq_of_toNat_eq h0)
    have hseeds : seeds.length = k.toNat := by simpa [Instr.countAgrees] using hk
    exact ⟨rfl, fun _ => Nat.pos_of_ne_zero hm', fun _ => hmax, fun _ => hkmax, fun _ => hseeds, fun _ => hin⟩
  | load I =>
    obtain ⟨hI, -, rfl⟩ := h
    obtain ⟨-, -, hm, -, hmax, hkmax⟩ := (imageStatus_ok_iff _ _).1 hI
    refine ⟨Memory.wf_ofBytesAt _ _, fun _ => ?_, fun _ => ?_, fun _ => ?_, fun _ => ?_, fun _ => hin⟩
    · rw [toNat_imageBitCount]; exact Nat.pos_of_ne_zero hm
    · rwa [toNat_imageBitCount]
    · rwa [toNat_imageSeedCount]
    · rw [toNat_imageSeedCount]; exact length_seedsOfBytes _ _
  | _ => simp [Instr.op] at hop

/-- The other commands keep the registers and store inside the live buffer. -/
theorem inv_of_keeps (h : EffectOf i s s' payload) (hc : i.op ≠ .config) (hl : i.op ≠ .load) (hI : s.Inv) : s'.Inv := by
  obtain ⟨hv, hs'⟩ := h.keeps_registers hc hl
  have hw := h.wf hI.canonical
  have hin : ∀ c ∈ s'.buf, c.1 < s.liveBytes := by
    rw [Memory.inside_iff hw]
    intro a ha
    rw [h.read_outside hc hl hI.canonical (hI.bitcountPositive hv) ha]
    exact (Memory.inside_iff hI.canonical _).1 (hI.bufInside hv) a ha
  rw [hs'] at hw ⊢
  exact ⟨hw, hI.bitcountPositive, hI.bitcountFits, hI.countFits, hI.seedsCounted, fun _ => hin⟩

/-- A command answered `OK` leaves a state with the invariant, where the Filter it found, if any, had it. -/
theorem inv (h : EffectOf i s s' payload) (hk : i.countAgrees = true) (hs : s.valid = true → s.Inv) : s'.Inv := by
  by_cases hop : i.op = .config ∨ i.op = .load
  · exact h.inv_of_replaces hop hk
  · obtain ⟨hc, hl⟩ := not_or.1 hop
    exact h.inv_of_keeps hc hl (hs (h.keeps_registers hc hl).1)

end EffectOf

/-! ### What one step can do -/

/-- Everything a step can do, with a name for each case. -/
inductive StepCase (s : State) : State → Prop where
  | idle (h : s.inbox = []) : StepCase s s
  | reset {e : HostEvent} {rest : List HostEvent} (h : s.inbox = e :: rest) (he : ∀ M, e ≠ .command M) :
      StepCase s ({ s with inbox := rest } : State).afterReset
  | fault {M : Message} {rest : List HostEvent} (st : Status) (h : s.inbox = .command M :: rest) :
      StepCase s (({ s with inbox := rest } : State).emit (responseMessage st (headerOpcode M) []))
  | ok {M : Message} {rest : List HostEvent} {i : Instr} {s' : State} {payload : Message} (h : s.inbox = .command M :: rest)
      (hd : decode M = .ok i) (he : EffectOf i { s with inbox := rest } s' payload) :
      StepCase s (s'.emit (responseMessage .ok i.op.byte payload))

/-- The inversion lemma of `step`. -/
theorem stepCase_of_step {s t : State} (h : step s = .next t) : StepCase s t := by
  match hin : s.inbox with
  | [] => rw [step_idle hin] at h; cases h; exact .idle hin
  | .reset :: rest => rw [step_afterReset hin (by simp)] at h; cases h; exact .reset hin (by simp)
  | .commandCut M :: rest => rw [step_afterReset hin (by simp)] at h; cases h; exact .reset hin (by simp)
  | .command M :: rest =>
    rw [step_command hin] at h
    cases hd : decode M with
    | error e => rw [takeCommand_error hd] at h; cases h; exact .fault _ hin
    | ok i =>
      rw [takeCommand_ok hd] at h
      rcases exec_cases i { s with inbox := rest } with ⟨s', payload, he, hx⟩ | ⟨st, -, hx⟩
      · rw [hx] at h; cases h; exact .ok hin hd he
      · rw [hx] at h; cases h; rw [← headerOpcode_of_decode hd]; exact .fault st hin

/-- A step keeps the canonical form. -/
theorem StepCase.canonical {s t : State} (h : StepCase s t) (hw : s.buf.wf = true) : t.buf.wf = true := by
  cases h with
  | idle => exact hw
  | reset => rfl
  | fault => exact hw
  | ok _ _ he => exact he.wf hw

/-- A Filter that a step leaves has the invariant, where the one it found, if any, had it: from reset on, whatever memory holds there. -/
theorem StepCase.inv_of_valid {s t : State} (h : StepCase s t) (hs : s.valid = true → s.Inv) (hv : t.valid = true) : t.Inv := by
  cases h with
  | idle => exact hs hv
  | reset => cases hv
  | fault => exact (hs hv).with_channels _ _
  | ok _ hd he => exact (he.inv (countAgrees_of_decode hd) fun hv => (hs hv).with_channels _ _).with_channels _ _

end Sys2Proof.Machine

/-! ### The invariant -/

open Sys2Proof Sys2Proof.Machine

/-- Settles O19: a step keeps the canonical form, and a Filter it leaves has the invariant. -/
theorem stepKeepsInvariant : Obligations.StepKeepsInvariant := by
  intro s t hs hst
  have hcase := stepCase_of_step hst
  exact State.inv_of_canonical (hcase.canonical hs.canonical) (hcase.inv_of_valid fun _ => hs)

/-- Settles O18: after reset nothing is listed and there is no Filter. -/
theorem invariantAtReset : Obligations.InvariantAtReset :=
  State.inv_of_canonical Memory.wf_nil fun hv => absurd hv (by decide)

/-- Settles O2: each is the value the reset state gives its field. -/
theorem resetLeavesEngineUnconfigured : Obligations.ResetLeavesEngineUnconfigured :=
  ⟨State.reset_valid, rfl, rfl⟩

end

section
/-! ### Two states that agree in all a command reads -/

namespace Sys2Proof.Machine

namespace Memory

/-- Setting the same bits keeps two bytes that agree in agreement. -/
theorem read_setBits_congr {mem mem' : Memory} (hw : mem.wf = true) (hw' : mem'.wf = true) (idxs : List Nat) {a : Nat}
    (h : mem.read a = mem'.read a) : (mem.setBits idxs).read a = (mem'.setBits idxs).read a := by
  refine read_ext fun p hp => ?_
  have hbyte : (8 * a + p) / 8 = a := by omega
  rw [bit_setBits hw, bit_setBits hw', bit_congr (hbyte.symm ▸ h)]

/-- The AND accumulator reads the addressed bits alone. -/
theorem allBits_congr {mem mem' : Memory} {idxs : List Nat} (h : ∀ n ∈ idxs, mem.bit n = mem'.bit n) :
    mem.allBits idxs = mem'.allBits idxs := by
  rw [Bool.eq_iff_iff, allBits_iff, allBits_iff]
  exact forall₂_congr fun n hn => by rw [h n hn]

end Memory

namespace State.SameEngine

variable {s t : State}

theorem bitcount (h : s.SameEngine t) (hv : s.valid = true) : s.bitcount = t.bitcount := congrArg FilterValue.m (h.2 hv)

theorem liveSeeds (h : s.SameEngine t) (hv : s.valid = true) : s.liveSeeds = t.liveSeeds := congrArg FilterValue.s (h.2 hv)

theorem liveBuffer (h : s.SameEngine t) (hv : s.valid = true) : s.liveBuffer = t.liveBuffer := congrArg FilterValue.b (h.2 hv)

/-- `K` is the number of the Filter value's seeds. -/
theorem k (h : s.SameEngine t) (hv : s.valid = true) : s.k = t.k := by
  apply BitVec.eq_of_toNat_eq
  rw [← State.length_liveSeeds, h.liveSeeds hv, State.length_liveSeeds]

theorem liveBytes (h : s.SameEngine t) (hv : s.valid = true) : s.liveBytes = t.liveBytes := by
  rw [State.liveBytes, h.bitcount hv, ← State.liveBytes]

theorem lanes (h : s.SameEngine t) (hv : s.valid = true) (c : Config) (x : Message) : lanes c s x = lanes c t x :=
  lanes_congr c (h.bitcount hv) (h.liveSeeds hv) x

theorem read (h : s.SameEngine t) (hv : s.valid = true) {a : Nat} (ha : a < s.liveBytes) : s.buf.read a = t.buf.read a := by
  have hb := h.liveBuffer hv
  rw [State.liveBuffer, State.liveBuffer, ← h.liveBytes hv] at hb
  exact (Memory.readRange_eq_iff _ _ _).1 hb a ha

theorem bit (h : s.SameEngine t) (hv : s.valid = true) {n : Nat} (hn : n < s.bitcount.toNat) : s.buf.bit n = t.buf.bit n :=
  Memory.bit_congr (h.read hv (div_lt_ceil8 hn))

/-- Equal engines stay equal when their buffers are replaced by two that agree on the live bytes. -/
theorem with_buf (h : s.SameEngine t) {mem mem' : Memory} (hm : ∀ a, a < s.liveBytes → mem.read a = mem'.read a) :
    ({ s with buf := mem } : State).SameEngine { t with buf := mem' } := by
  refine ⟨h.1, fun hv => ?_⟩
  have hb : mem.readRange s.liveBytes = mem'.readRange t.liveBytes := by
    rw [← h.liveBytes hv, Memory.readRange_eq_iff]; exact hm
  exact (FilterValue.mk.injEq ..).mpr ⟨h.bitcount hv, h.liveSeeds hv, hb⟩

end State.SameEngine

/-- `HAS` reads no bit at or beyond `BITCOUNT` (R102, R115). -/
theorem allBits_lanes_congr (c : Config) {s : State} {mem mem' : Memory} (hm : 1 ≤ s.bitcount.toNat)
    (h : ∀ n, n < s.bitcount.toNat → mem.bit n = mem'.bit n) (x : Message) :
    mem.allBits (lanes c s x) = mem'.allBits (lanes c s x) :=
  Memory.allBits_congr fun _ hn => h _ (lanes_lt hm hn)

/-- Two results are next states that `R` relates. -/
def Related (R : State → State → Prop) (r r' : Result) : Prop := ∃ s t, r = .next s ∧ r' = .next t ∧ R s t

section Related

variable {R : State → State → Prop} {s t : State} {body body' : Result}

theorem Related.ite {p : Prop} [Decidable p] {a b a' b' : Result} (h : p → Related R a a') (h' : ¬ p → Related R b b') :
    Related R (if p then a else b) (if p then a' else b') := by
  by_cases hp : p
  · rw [if_pos hp, if_pos hp]; exact h hp
  · rw [if_neg hp, if_neg hp]; exact h' hp

theorem Related.emit {P : Message} (h : R (s.emit P) (t.emit P)) : Related R (.next (s.emit P)) (.next (t.emit P)) :=
  ⟨_, _, rfl, rfl, h⟩

theorem Related.withFilter (op : Op) (hv : s.valid = t.valid) (hf : ∀ P, R (s.emit P) (t.emit P))
    (hb : s.valid = true → Related R body body') : Related R (withFilter op s body) (withFilter op t body') := by
  unfold Machine.withFilter
  rw [← hv]
  exact .ite (fun _ => .emit (hf _)) fun h => hb (by simpa using h)

theorem Related.withIndex (op : Op) (j : Index) (hv : s.valid = t.valid) (hm : s.valid = true → s.bitcount = t.bitcount)
    (hf : ∀ P, R (s.emit P) (t.emit P)) (hb : s.valid = true → j.toNat < s.bitcount.toNat → Related R body body') :
    Related R (withIndex op j s body) (withIndex op j t body') := by
  refine .withFilter op hv hf fun h => ?_
  rw [← hm h]
  exact .ite (fun _ => .emit (hf _)) fun hj => hb h (BitVec.not_le.1 hj)

theorem Related.withItems (c : Config) (op : Op) (xs : List Message) (hv : s.valid = t.valid) (hf : ∀ P, R (s.emit P) (t.emit P))
    (hb : s.valid = true → Related R body body') : Related R (withItems c op xs s body) (withItems c op xs t body') :=
  .withFilter op hv hf fun h => .ite (fun _ => .emit (hf _)) fun _ => hb h

end Related

/-- A relation on states that a command can neither see through nor break: it implies equal engines, and a response, a write of the
live buffer on both sides alike, and a new Filter on both sides keep it. -/
structure Congruence (R : State → State → Prop) : Prop where
  sameEngine {s t : State} : R s t → s.SameEngine t
  emit {s t : State} : R s t → ∀ P, R (s.emit P) (t.emit P)
  with_buf {s t : State} : R s t → ∀ {mem mem' : Memory}, (∀ a, a < s.liveBytes → mem.read a = mem'.read a) →
    R { s with buf := mem } { t with buf := mem' }
  with_filter {s t : State} : R s t → ∀ (m : Index) (k : Count) (seeds : List Seed) (mem : Memory),
    R { s with valid := true, bitcount := m, k := k, seeds := seeds, buf := mem }
      { t with valid := true, bitcount := m, k := k, seeds := seeds, buf := mem }

/-- Every command respects every such relation: on related states it gives related states, by the same response. -/
theorem Congruence.related_exec {R : State → State → Prop} (hR : Congruence R) {s t : State} (h : R s t)
    (hw : s.valid = true → s.buf.wf = true ∧ t.buf.wf = true ∧ 1 ≤ s.bitcount.toNat) (i : Instr) :
    Related R (exec i s) (exec i t) := by
  have he := hR.sameEngine h
  have hf := hR.emit h
  have insert (op : Op) (idxs : List Nat) (hv : s.valid = true) :
      Related R (respond op [] { s with buf := s.buf.setBits idxs }) (respond op [] { t with buf := t.buf.setBits idxs }) := by
    obtain ⟨hs, ht, -⟩ := hw hv
    exact .emit (hR.emit (hR.with_buf h fun _ ha => Memory.read_setBits_congr hs ht idxs (he.read hv ha)) _)
  cases i with
  | config m k seeds =>
    exact .ite (fun _ => .emit (hf _)) fun _ => .ite (fun _ => .emit (hf _)) fun _ => .ite (fun _ => .emit (hf _)) fun _ =>
      .emit (hR.emit (hR.with_filter h _ _ _ _) _)
  | setbit j => exact .withIndex _ _ he.1 he.bitcount hf fun hv _ => insert _ [j.toNat] hv
  | getbit j =>
    refine .withIndex _ _ he.1 he.bitcount hf fun hv hj => ?_
    rw [← he.bit hv hj]
    exact .emit (hf _)
  | add x =>
    refine .withItems _ _ _ he.1 hf fun hv => ?_
    rw [insertItem, insertItem, ← he.lanes hv]
    exact insert _ _ hv
  | addv xs =>
    refine .withItems _ _ _ he.1 hf fun hv => ?_
    rw [foldl_insertItem, foldl_insertItem, ← funext (he.lanes hv Config.engine)]
    exact insert _ _ hv
  | has x =>
    refine .withItems _ _ _ he.1 hf fun hv => ?_
    rw [← he.lanes hv, ← allBits_lanes_congr _ (hw hv).2.2 (fun _ hn => he.bit hv hn)]
    exact .emit (hf _)
  | clear =>
    refine .withFilter _ he.1 hf fun hv => .emit (hR.emit (hR.with_buf h fun a ha => ?_) _)
    rw [Memory.read_zeroBelow, Memory.read_zeroBelow, if_pos ha, if_pos (he.liveBytes hv ▸ ha)]
  | serialize =>
    refine .withFilter _ he.1 hf fun hv => ?_
    rw [← he.k hv, ← he.bitcount hv, ← he.liveSeeds hv, ← he.liveBuffer hv]
    exact .ite (fun _ => .emit (hf _)) fun _ => .emit (hf _)
  | load I => exact .ite (fun _ => .emit (hR.emit (hR.with_filter h _ _ _ _) _)) fun _ => .emit (hf _)

theorem congruence_indistinguishable : Congruence State.Indistinguishable where
  sameEngine h := h.1
  emit h P := ⟨h.1, h.2.1, by rw [State.emit_out, State.emit_out, h.2.2]⟩
  with_buf h _ _ hm := ⟨h.1.with_buf hm, h.2⟩
  with_filter h _ _ _ _ := ⟨⟨rfl, fun _ => rfl⟩, h.2⟩

/-- States that differ in nothing but bytes at or beyond the end of the live buffer. -/
def State.DifferOutside (s t : State) : Prop :=
  ∃ mem, t = { s with buf := mem } ∧ ∀ a, a < s.liveBytes → mem.read a = s.buf.read a

theorem congruence_differOutside : Congruence State.DifferOutside where
  sameEngine := by
    rintro s _ ⟨mem, rfl, hm⟩
    exact State.SameEngine.with_buf (s := s) (mem := s.buf) ⟨rfl, fun _ => rfl⟩ fun a ha => (hm a ha).symm
  emit := by
    rintro s _ ⟨mem, rfl, hm⟩ P
    exact ⟨mem, rfl, hm⟩
  with_buf := by
    rintro s _ ⟨mem, rfl, -⟩ _ mem₂ hm
    exact ⟨mem₂, rfl, fun a ha => (hm a ha).symm⟩
  with_filter := by
    rintro s _ ⟨mem, rfl, -⟩ _ _ _ mem'
    exact ⟨mem', rfl, fun _ _ => rfl⟩

/-- What a host cannot tell apart before a step it cannot tell apart after it (R24, R137). -/
theorem related_step {s t : State} (hw : s.valid = true → s.buf.wf = true ∧ t.buf.wf = true ∧ 1 ≤ s.bitcount.toNat)
    (h : s.Indistinguishable t) : Related State.Indistinguishable (step s) (step t) := by
  obtain ⟨he, hin, hout⟩ := h
  have taken (rest : List HostEvent) :
      State.Indistinguishable { s with inbox := rest } { t with inbox := rest } := ⟨he, rfl, hout⟩
  have reset {e : HostEvent} {rest : List HostEvent} (hs : s.inbox = e :: rest) (ne : ∀ M, e ≠ .command M) :
      Related State.Indistinguishable (step s) (step t) :=
    ⟨_, _, step_afterReset hs ne, step_afterReset (hin ▸ hs) ne, ⟨rfl, nofun⟩, rfl, hout⟩
  match hs : s.inbox with
  | [] => exact ⟨_, _, step_idle hs, step_idle (hin ▸ hs), he, hin, hout⟩
  | .reset :: rest => exact reset hs nofun
  | .commandCut M :: rest => exact reset hs nofun
  | .command M :: rest =>
    rw [step_command hs, step_command (hin ▸ hs)]
    cases hd : decode M with
    | error e =>
      rw [takeCommand_error hd, takeCommand_error hd]
      exact .emit (congruence_indistinguishable.emit (taken rest) _)
    | ok i =>
      rw [takeCommand_ok hd, takeCommand_ok hd]
      exact congruence_indistinguishable.related_exec (taken rest) hw i

/-- Runs of any length from such states end in such states, where each Filter they start with has the invariant: an engine without one may
hold anything. -/
theorem related_run (n : Nat) {s t : State} (hs : s.valid = true → s.Inv) (ht : t.valid = true → t.Inv)
    (h : s.Indistinguishable t) :
    Related State.Indistinguishable (Host.Core.run Sys2Proof.core n s) (Host.Core.run Sys2Proof.core n t) := by
  induction n generalizing s t with
  | zero => exact ⟨s, t, rfl, rfl, h⟩
  | succ n ih =>
    have hw (hv : s.valid = true) : s.buf.wf = true ∧ t.buf.wf = true ∧ 1 ≤ s.bitcount.toNat :=
      ⟨(hs hv).canonical, (ht (h.1.1 ▸ hv)).canonical, (hs hv).bitcountPositive hv⟩
    obtain ⟨s', t', hs', ht', h'⟩ := related_step hw h
    rw [run_of_step n hs', run_of_step n ht']
    exact ih ((stepCase_of_step hs').inv_of_valid hs) ((stepCase_of_step ht').inv_of_valid ht) h'

end Sys2Proof.Machine

/-! ### What a host can tell apart -/

open Sys2Proof Sys2Proof.Machine

/-- Settles O26: one step of the simulation. -/
theorem equalFiltersAnswerAlike : Obligations.EqualFiltersAnswerAlike :=
  fun _ _ hw h => related_step hw h

/-- Settles O27: the simulation along a run, from two engines without a Filter. -/
theorem unspecifiedResetValuesUnobservable : Obligations.UnspecifiedResetValuesUnobservable := by
  refine ⟨State.reset_valid, fun n events m k seeds buf => ?_⟩
  obtain ⟨s, t, hs, ht, he, -, hout⟩ := related_run n (s := { State.reset with inbox := events })
    (t := { State.reset with inbox := events, bitcount := m, k := k, seeds := seeds, buf := buf }) nofun nofun ⟨⟨rfl, nofun⟩, rfl, rfl⟩
  exact ⟨s, t, hs, ht, hout, he⟩

end

section
/-! ### Frames of commands, and the padding bits -/

open Sys2Proof Sys2Proof.Machine

/-- Settles O9: of the cases of a step only a reset leaves `VALID` 0, and only an effect of `CONFIG` or `LOAD` starts without a Filter. -/
theorem validChangesOnlySo : Obligations.ValidChangesOnlySo := by
  refine ⟨fun s t hst hs ht => ?_, fun s t hst hs ht => ?_, fun i s t _ hc => ?_⟩
  · cases stepCase_of_step hst with
    | idle => rw [hs] at ht; cases ht
    | @reset e rest hin ne =>
      refine ⟨e, rest, hin, ?_⟩
      cases e with
      | command M => exact absurd rfl (ne M)
      | reset => exact .inl rfl
      | commandCut M => exact .inr ⟨M, rfl⟩
    | fault => rw [State.emit_valid, hs] at ht; cases ht
    | ok _ _ he => rw [State.emit_valid, he.valid] at ht; cases ht
  · cases stepCase_of_step hst with
    | idle => rw [hs] at ht; cases ht
    | reset => cases ht
    | fault => rw [State.emit_valid, hs] at ht; cases ht
    | @ok M rest i s' payload hin hd he =>
      refine ⟨M, rest, i, hin, hd, ?_, completesOk_iff.2 ⟨s', payload, he, rfl⟩⟩
      by_contra hop
      obtain ⟨hc, hl⟩ := not_or.1 hop
      have hv : s.valid = true := (he.keeps_registers hc hl).1
      rw [hs] at hv; cases hv
  · obtain ⟨s', payload, he, rfl⟩ := completesOk_iff.1 hc
    exact he.valid

/-- Settles O20: an effect keeps what it must, and a fault keeps everything. -/
theorem onlyConfigAndLoadReconfigure : Obligations.OnlyConfigAndLoadReconfigure := by
  intro i s t hx
  rcases exec_cases i s with ⟨s', payload, he, hx'⟩ | ⟨st, -, hx'⟩
  · cases hx.symm.trans hx'
    obtain ⟨hin, hout⟩ := he.channels
    refine ⟨hin, ⟨_, by rw [State.emit_out, hout]⟩, fun hc hl => ?_, fun hop => ?_⟩
    · obtain ⟨-, hs'⟩ := he.keeps_registers hc hl
      rw [hs']; exact ⟨rfl, rfl, rfl, rfl⟩
    · rw [State.emit_buf, he.eq_of_reads hop]
  · cases hx.symm.trans hx'
    exact ⟨rfl, ⟨_, rfl⟩, fun _ _ => ⟨rfl, rfl, rfl, rfl⟩, fun _ => rfl⟩

/-- Settles O25: writes by the frame of an effect, reads by the congruence of commands for states that differ outside the buffer. -/
theorem noAccessOutsideBuffer : Obligations.NoAccessOutsideBuffer := by
  refine ⟨fun i s t a hs hc hl hx ha => ?_, fun i s t hop hc => ?_, fun i s t h => ?_, fun c s x i hm hi => ?_,
    fun i s mem hs hmem => ?_⟩
  · rcases exec_cases i s with ⟨s', payload, he, hx'⟩ | ⟨st, -, hx'⟩
    · cases hx.symm.trans hx'
      obtain ⟨hw, hm⟩ := hs (he.keeps_registers hc hl).1
      exact he.read_outside hc hl hw hm ha
    · cases hx.symm.trans hx'
      rfl
  · obtain ⟨s', payload, he, rfl⟩ := completesOk_iff.1 hc
    exact he.inside_of_replaces hop
  · have hi : i.toNat < s.bitcount.toNat := by
      rcases h with h | h <;> obtain ⟨s', payload, ⟨-, hi, -⟩, -⟩ := completesOk_iff.1 h <;> exact hi
    exact ⟨hi, div_lt_ceil8 hi⟩
  · exact div_lt_ceil8 (lanes_lt hm hi)
  · obtain ⟨t, _, ht, ht', mem', rfl, hmem'⟩ := congruence_differOutside.related_exec (s := s) ⟨mem, rfl, hmem⟩ hs i
    exact ⟨t, mem', ht, ht', hmem'⟩

namespace Sys2Proof.Machine

/-- `SETBIT`, `ADD` and `ADDV` change no bit from `BITCOUNT` on. -/
theorem EffectOf.bit_outside {i : Instr} {s s' : State} {payload : Message} (h : EffectOf i s s' payload)
    (hop : i.op = .setbit ∨ i.op = .add ∨ i.op = .addv) (hw : s.buf.wf = true) (hm : 1 ≤ s.bitcount.toNat) {n : Nat}
    (hn : s.bitcount.toNat ≤ n) : s'.buf.bit n = s.buf.bit n := by
  have hne (op : Op) (ho : op ∉ [Op.setbit, .add, .addv]) : i.op ≠ op := by
    rintro rfl; simp [hop] at ho
  rcases h.buf_cases (hne _ (by decide)) (hne _ (by decide)) with ⟨hc, -⟩ | ⟨-, hb⟩
  · exact absurd hc (hne _ (by decide))
  · rw [hb]
    exact Memory.bit_setBits_of_not_mem hw fun hmem => absurd (h.storedBits_lt hm n hmem) (by omega)

/-- `CONFIG` and `CLEAR` leave every bit of the live buffer 0, padding included. -/
theorem EffectOf.bit_of_zeroes {i : Instr} {s s' : State} {payload : Message} (h : EffectOf i s s' payload)
    (hop : i.op = .config ∨ i.op = .clear) {n : Nat} (hn : n < 8 * s'.liveBytes) : s'.buf.bit n = false := by
  cases i with
  | config m k seeds => obtain ⟨-, -, -, -, rfl⟩ := h; exact Memory.bit_nil n
  | clear =>
    obtain ⟨-, -, rfl⟩ := h
    exact Memory.bit_zeroBelow (Nat.div_lt_of_lt_mul hn)
  | _ => simp [Instr.op] at hop

/-- `GETBIT` and `HAS` answer a memory with the same bits below `BITCOUNT` the same, and change neither. -/
theorem exec_query_congr {i : Instr} {s : State} {mem : Memory} (hm : 1 ≤ s.bitcount.toNat) (hop : i.op = .getbit ∨ i.op = .has)
    (h : ∀ n, n < s.bitcount.toNat → mem.bit n = s.buf.bit n) :
    Related (fun t t' => ∃ P, t = s.emit P ∧ t' = ({ s with buf := mem } : State).emit P)
      (exec i s) (exec i { s with buf := mem }) := by
  cases i with
  | getbit j =>
    refine .withIndex _ _ rfl (fun _ => rfl) (fun P => ⟨P, rfl, rfl⟩) fun _ hj => ?_
    rw [h _ hj]
    exact .emit ⟨_, rfl, rfl⟩
  | has x =>
    refine .withItems _ _ _ rfl (fun P => ⟨P, rfl, rfl⟩) fun _ => ?_
    rw [← allBits_lanes_congr Config.engine hm h x]
    exact .emit ⟨_, rfl, rfl⟩
  | _ => simp [Instr.op] at hop

/-- Byte `a` of the buffer stands in an image behind the header and the seeds (R130). -/
theorem getD_imageMessage_buffer (m : Index) (k : Byte) (seeds : List Seed) (buffer : Message) (a : Nat) :
    (imageMessage m k seeds buffer).getD (8 + 4 * seeds.length + a) 0 = buffer.getD a 0 := by
  have hd := congrArg (·.getD (4 * seeds.length + a) 0) (drop_imageMessage m k seeds buffer)
  simp only [List.getD_eq_getElem?_getD, List.getElem?_drop, ← Nat.add_assoc] at hd ⊢
  rw [hd, List.getElem?_append_right (by simp), length_bytesOfSeeds, Nat.add_sub_cancel_left]

/-- The image a `SERIALIZE` that is answered `OK` emits (R135). -/
theorem image_of_serialize {s : State} {I : Message} (h : exec .serialize s = .next (s.emit (responseMessage .ok 0x08 I))) :
    I = imageMessage s.bitcount (s.k.setWidth 8) s.liveSeeds s.liveBuffer := by
  obtain ⟨_, payload, ⟨-, -, rfl, rfl⟩, ht⟩ := completesOk_iff.1 ⟨h, I, rfl⟩
  have hout := congrArg State.out ht
  rw [State.emit_out, State.emit_out, List.append_cancel_left_eq, List.cons.injEq] at hout
  exact (responseMessage_inj hout.1).2.2

end Sys2Proof.Machine

/-- Settles O47: command by command. -/
theorem paddingBits : Obligations.PaddingBits := by
  refine ⟨fun i s t n hop hc _ hn => ?_, fun I s t n hc _ hn => ?_, fun i s t n hw hm hop hx hn => ?_,
    fun i s mem hm hop h => ?_, fun s I n hx _ hn => ?_⟩
  · obtain ⟨s', payload, he, rfl⟩ := completesOk_iff.1 hc
    exact he.bit_of_zeroes hop hn
  · obtain ⟨s', payload, ⟨-, -, rfl⟩, rfl⟩ := completesOk_iff.1 hc
    rw [State.emit_buf, Memory.bit_ofBytesAt, imageBuffer, imageSeedCount]
    simp only [List.getD_eq_getElem?_getD, List.getElem?_drop]
    rfl
  · rcases exec_cases i s with ⟨s', payload, he, hx'⟩ | ⟨st, -, hx'⟩
    · cases hx.symm.trans hx'
      exact he.bit_outside hop hw hm hn
    · cases hx.symm.trans hx'
      rfl
  · obtain ⟨t, t', ht, ht', P, rfl, rfl⟩ := exec_query_congr hm hop h
    exact ⟨P, ht, ht'⟩
  · have hbyte := getD_imageMessage_buffer s.bitcount (s.k.setWidth 8) s.liveSeeds s.liveBuffer (n / 8)
    rw [State.length_liveSeeds] at hbyte
    have hlive : n / 8 < s.liveBytes := Nat.div_lt_of_lt_mul hn
    rw [image_of_serialize hx, hbyte, Memory.bit_eq_getLsbD, State.liveBuffer]
    exact congrArg (·.getLsbD (n % 8)) (Memory.getD_readRange _ _ _ hlive)

end

section
/-! ### The byte memory, and the order of the lanes -/

namespace Sys2Proof.Machine.Memory

theorem read_write_self {mem : Memory} (hw : mem.wf = true) (a : Nat) (v : Byte) : (mem.write a v).read a = v := by
  rw [read_write hw, if_pos rfl]

theorem read_write_of_ne {mem : Memory} (hw : mem.wf = true) {a b : Nat} (hne : b ≠ a) (v : Byte) :
    (mem.write a v).read b = mem.read b := by
  rw [read_write hw, if_neg hne]

/-- The OR accumulator depends on which indices it is given, not on their order or number (R112). -/
theorem setBits_eq_of_mem_iff {mem : Memory} (hw : mem.wf = true) {idxs idxs' : List Nat} (h : ∀ i, i ∈ idxs ↔ i ∈ idxs') :
    mem.setBits idxs = mem.setBits idxs' := by
  refine ext_bits (wf_setBits hw idxs) (wf_setBits hw idxs') fun j => ?_
  rw [bit_setBits hw, bit_setBits hw, decide_eq_decide.2 (h j)]

/-- The AND accumulator depends on which indices it is given, not on their order or number (R116). -/
theorem allBits_eq_of_mem_iff (mem : Memory) {idxs idxs' : List Nat} (h : ∀ i, i ∈ idxs ↔ i ∈ idxs') :
    mem.allBits idxs = mem.allBits idxs' := by
  rw [Bool.eq_iff_iff, allBits_iff, allBits_iff]
  exact forall_congr' fun i => imp_congr_left (h i)

end Sys2Proof.Machine.Memory

open Sys2Proof Sys2Proof.Machine

/-- Settles O30: the laws of one write, which an OR-write is too, and extensionality of canonical memories. -/
theorem memoryAccesses : Obligations.MemoryAccesses := by
  intro mem mem' a b v hw hw'
  exact ⟨Memory.wf_write hw a v, Memory.wf_orWrite hw a v, Memory.read_write_self hw a v, Memory.read_write_self hw a _,
    fun hne => ⟨Memory.read_write_of_ne hw hne v, Memory.read_write_of_ne hw hne _⟩, Memory.ext hw hw'⟩

/-- Settles O37: permuted lists have the same members, and neither accumulator depends on more. -/
theorem laneOrderUnobservable : Obligations.LaneOrderUnobservable := by
  intro mem idxs idxs' hw hperm
  exact ⟨Memory.setBits_eq_of_mem_iff hw fun _ => hperm.mem_iff, Memory.allBits_eq_of_mem_iff mem fun _ => hperm.mem_iff⟩

end

section
/-! ### Payloads: what each rule of the decoder parses, and the round trips -/

namespace Sys2Proof

/-- A byte sequence of the width of its register is held there as the number it says. -/
theorem toNat_ofNat_leValue {n : Nat} {s : Message} (h : s.length = n) :
    (BitVec.ofNat (8 * n) (leValue s)).toNat = leValue s := by
  rw [BitVec.toNat_ofNat, Nat.pow_mul]
  exact Nat.mod_eq_of_lt (leValue_lt_of_length h)

theorem slice_drop (s : Message) (a b n : Nat) : slice (s.drop a) b n = slice s (a + b) n := by
  rw [slice, slice, List.drop_drop]

/-- A field of a sequence and what follows it are what stands from its offset on. -/
theorem slice_append_drop (s : Message) (a n : Nat) : slice s a n ++ s.drop (a + n) = s.drop a := by
  rw [slice, ← List.drop_drop, List.take_append_drop]

/-- The index in six payload bytes (R56, R57). -/
theorem ofNat_leValue_eq_iff {p : Message} (h : p.length = 6) (i : Index) :
    BitVec.ofNat 48 (leValue p) = i ↔ i.toNat = leValue p := by
  rw [← BitVec.toNat_inj, show (BitVec.ofNat 48 (leValue p)).toNat = leValue p from toNat_ofNat_leValue h]
  exact eq_comm

/-- The records of an `ADDV`, in both directions (R59). -/
theorem itemsOfBytes_eq_some_iff {n : Nat} {p : Message} {items : List Message} :
    itemsOfBytes n p = some items ↔
      items.length = n ∧ (∀ x ∈ items, x.length < 2 ^ 48) ∧ p = items.flatMap fun x => leBytes 6 x.length ++ x := by
  constructor
  · intro h
    obtain ⟨hn, hp⟩ := encode_itemsOfBytes h
    exact ⟨hn, length_of_mem_itemsOfBytes h, hp.symm⟩
  · rintro ⟨rfl, hx, rfl⟩
    exact itemsOfBytes_encode items hx

/-! One lemma for each rule of the payload parse (R55 to R63). -/

theorem decodePayload_config_iff {p : Message} {i : Instr} :
    decodePayload .config p = some i ↔
      8 ≤ p.length ∧ p.length = 8 + 4 * leValue (slice p 6 2) ∧
        i = .config (BitVec.ofNat 48 (leValue (p.take 6))) (BitVec.ofNat 16 (leValue (slice p 6 2)))
          (seedsOfBytes (leValue (slice p 6 2)) (p.drop 8)) := by
  by_cases h8 : p.length < 8
  · simp [decodePayload, h8]
  by_cases hl : p.length = 8 + 4 * leValue (slice p 6 2)
  · simp [decodePayload, ← hl, not_lt.1 h8, eq_comm]
  · simp [decodePayload, h8, hl]

theorem decodePayload_setbit_iff {p : Message} {i : Index} :
    decodePayload .setbit p = some (.setbit i) ↔ p.length = 6 ∧ i.toNat = leValue p := by
  by_cases h : p.length = 6
  · simp [decodePayload, h, ofNat_leValue_eq_iff h]
  · simp [decodePayload, h]

theorem decodePayload_getbit_iff {p : Message} {i : Index} :
    decodePayload .getbit p = some (.getbit i) ↔ p.length = 6 ∧ i.toNat = leValue p := by
  by_cases h : p.length = 6
  · simp [decodePayload, h, ofNat_leValue_eq_iff h]
  · simp [decodePayload, h]

theorem decodePayload_addv_iff {p : Message} {items : List Message} :
    decodePayload .addv p = some (.addv items) ↔
      6 ≤ p.length ∧ items.length = leValue (p.take 6) ∧ (∀ x ∈ items, x.length < 2 ^ 48) ∧
        p.drop 6 = items.flatMap fun x => leBytes 6 x.length ++ x := by
  rw [← itemsOfBytes_eq_some_iff]
  by_cases h : p.length < 6
  · simp [decodePayload, h]
  · simp [decodePayload, h, not_lt.1 h]

theorem decodePayload_clear_iff {p : Message} : decodePayload .clear p = some .clear ↔ p = [] := by
  simp [decodePayload]

theorem decodePayload_serialize_iff {p : Message} : decodePayload .serialize p = some .serialize ↔ p = [] := by
  simp [decodePayload]

/-! The round trips of a payload. -/

/-- The payload of a `CONFIG`, field by field (R55). -/
theorem decodePayload_encodePayload_config {m : Index} {k : Count} {seeds : List Seed} (hk : seeds.length = k.toNat) :
    decodePayload .config (encodePayload (.config m k seeds)) = some (.config m k seeds) := by
  have hm : (encodePayload (.config m k seeds)).take 6 = leBytes 6 m.toNat := by
    rw [encodePayload, List.append_assoc]; exact List.take_left' (length_leBytes 6 _)
  have hc : slice (encodePayload (.config m k seeds)) 6 2 = leBytes 2 k.toNat := by
    have := slice_append_middle (leBytes 6 m.toNat) (leBytes 2 k.toNat) (bytesOfSeeds seeds)
    rwa [length_leBytes, length_leBytes, ← List.append_assoc] at this
  have hs : (encodePayload (.config m k seeds)).drop 8 = bytesOfSeeds seeds := by
    exact List.drop_left' (by simp)
  have hseeds : seedsOfBytes k.toNat (bytesOfSeeds seeds) = seeds := by
    simpa [hk] using seedsOfBytes_bytesOfSeeds seeds []
  rw [decodePayload_config_iff, hm, hc, hs, leValue_leBytes 6 _ m.isLt, leValue_leBytes 2 _ k.isLt, hseeds,
    length_encodePayload, Instr.payloadLength, hk, BitVec.ofNat_toNat, BitVec.ofNat_toNat, BitVec.setWidth_eq,
    BitVec.setWidth_eq]
  exact ⟨Nat.le_add_right _ _, rfl, rfl⟩

/-- The two conditions on a command that a packet can carry (R51, R55). -/
theorem Instr.wellFormed_iff (i : Instr) : i.wellFormed = true ↔ i.countAgrees = true ∧ i.payloadLength < 2 ^ 48 := by
  rw [Instr.wellFormed, Bool.and_eq_true, decide_eq_true_iff]

/-- A count of items and every item's length fit 48 bits where the payload's length does (R59). -/
theorem addv_lengths_lt {items : List Message} (h : (Instr.addv items).payloadLength < 2 ^ 48) :
    items.length < 2 ^ 48 ∧ ∀ x ∈ items, x.length < 2 ^ 48 := by
  rw [Instr.payloadLength] at h
  constructor
  · have : (items.map fun x => 6 + x.length).length ≤ (items.map fun x => 6 + x.length).sum :=
      List.length_le_sum_of_one_le _ fun n hn => by
        obtain ⟨x, -, rfl⟩ := List.mem_map.1 hn
        omega
    rw [List.length_map] at this
    omega
  · intro x hx
    have : 6 + x.length ≤ (items.map fun x => 6 + x.length).sum :=
      List.le_sum_of_mem (List.mem_map.2 ⟨x, hx, rfl⟩)
    omega

theorem decodePayload_encodePayload_addv {items : List Message} (h : (Instr.addv items).payloadLength < 2 ^ 48) :
    decodePayload .addv (encodePayload (.addv items)) = some (.addv items) := by
  obtain ⟨hn, hx⟩ := addv_lengths_lt h
  have hcount : (encodePayload (.addv items)).take 6 = leBytes 6 items.length :=
    List.take_left' (length_leBytes 6 _)
  rw [decodePayload_addv_iff, hcount, leValue_leBytes 6 _ hn, length_encodePayload]
  exact ⟨Nat.le_add_right _ _, rfl, hx, List.drop_left' (length_leBytes 6 _)⟩

/-- The payload of a well-formed command parses to the command. -/
theorem decodePayload_encodePayload {i : Instr} (h : i.wellFormed = true) :
    decodePayload i.op (encodePayload i) = some i := by
  obtain ⟨hk, hl⟩ := i.wellFormed_iff.1 h
  cases i with
  | config m k seeds => exact decodePayload_encodePayload_config (by simpa [Instr.countAgrees] using hk)
  | setbit j => exact decodePayload_setbit_iff.2 ⟨length_leBytes 6 _, (leValue_leBytes 6 _ j.isLt).symm⟩
  | getbit j => exact decodePayload_getbit_iff.2 ⟨length_leBytes 6 _, (leValue_leBytes 6 _ j.isLt).symm⟩
  | add x => rfl
  | addv items => exact decodePayload_encodePayload_addv hl
  | has x => rfl
  | clear => rfl
  | serialize => rfl
  | load I => rfl

/-- A payload that parses is the payload of the command it parses to: no bit of it is ignored. -/
theorem encodePayload_of_decodePayload {p : Message} {i : Instr} (h : decodePayload i.op p = some i) :
    encodePayload i = p := by
  cases i with
  | config m k seeds =>
    obtain ⟨h8, hl, hi⟩ := decodePayload_config_iff.1 h
    obtain ⟨rfl, rfl, rfl⟩ := Instr.config.inj hi
    have hm : (p.take 6).length = 6 := by rw [List.length_take]; omega
    have hk : (slice p 6 2).length = 2 := length_slice _ _ _ (by omega)
    have hs : (p.drop 8).length = 4 * leValue (slice p 6 2) := by rw [List.length_drop]; omega
    rw [encodePayload, toNat_ofNat_leValue hm, toNat_ofNat_leValue hk, leBytes_leValue_of_length hm,
      leBytes_leValue_of_length hk, bytesOfSeeds_seedsOfBytes _ _ hs.ge, List.take_of_length_le hs.le, List.append_assoc,
      slice_append_drop, List.take_append_drop]
  | setbit j => obtain ⟨h6, hj⟩ := decodePayload_setbit_iff.1 h; rw [encodePayload, hj, leBytes_leValue_of_length h6]
  | getbit j => obtain ⟨h6, hj⟩ := decodePayload_getbit_iff.1 h; rw [encodePayload, hj, leBytes_leValue_of_length h6]
  | add x => cases h; rfl
  | addv items =>
    obtain ⟨h6, hn, -, hp⟩ := decodePayload_addv_iff.1 h
    have h6' : (p.take 6).length = 6 := by rw [List.length_take]; omega
    rw [encodePayload, hn, ← hp, leBytes_leValue_of_length h6', List.take_append_drop]
  | has x => cases h; rfl
  | clear => exact (decodePayload_clear_iff.1 h).symm
  | serialize => exact (decodePayload_serialize_iff.1 h).symm
  | load I => cases h; rfl

/-- A message of at least 8 bytes is its four header fields and its payload (R51). -/
theorem message_eq_fields {M : Message} (h8 : 8 ≤ M.length) :
    M = headerOpcode M :: (leBytes 6 (headerPlen M) ++ (headerRsv M :: M.drop 8)) := by
  have hop : headerOpcode M :: M.drop 1 = M := by
    have h0 : 0 < M.length := by omega
    rw [headerOpcode, List.getD_eq_getElem _ _ h0]; exact List.getElem_cons_drop h0
  have hrsv : headerRsv M :: M.drop 8 = M.drop 7 := by
    have h7 : 7 < M.length := by omega
    rw [headerRsv, List.getD_eq_getElem _ _ h7]; exact List.getElem_cons_drop h7
  rw [hrsv, headerPlen, leBytes_leValue_of_length (length_slice M 1 6 (by omega)), slice_append_drop, hop]

end Sys2Proof

open Sys2Proof Sys2Proof.Machine

/-- Settles O11: the encoded header passes every step of R54, and the payload parses back. -/
theorem decodeOfEncode : Obligations.DecodeOfEncode := by
  intro i hi
  obtain ⟨-, hl⟩ := i.wellFormed_iff.1 hi
  have hpayload : decodePayload i.op ((encode i).drop 8) = some i := by
    rw [drop_encode]; exact decodePayload_encodePayload hi
  refine (decode_ok_iff _ _).2 ⟨?_, ?_, i.op, (headerOpcode_encode i).symm, headerRsv_encode i, hpayload⟩
  · rw [length_encode]; exact Nat.le_add_right _ _
  · rw [length_encode, headerPlen_encode hl]

/-- Settles O12: the message is its header fields and its payload, and each is what `encode` writes. -/
theorem encodeOfDecode : Obligations.EncodeOfDecode := by
  intro M i h
  obtain ⟨h8, hl, op, hop, hr, hp⟩ := (decode_ok_iff M i).1 h
  obtain rfl := op_of_decodePayload hp
  have hpayload : encodePayload i = M.drop 8 := encodePayload_of_decodePayload hp
  have hplen : (encodePayload i).length = headerPlen M := by rw [hpayload, List.length_drop]; omega
  constructor
  · have hfits : headerPlen M < 2 ^ 48 := leValue_lt_of_length (n := 6) (length_slice M 1 6 (by omega))
    rw [← hplen, length_encodePayload] at hfits
    exact i.wellFormed_iff.2 ⟨countAgrees_of_decode h, hfits⟩
  · have hfields := message_eq_fields h8
    rw [hr] at hfields
    rw [encode_eq, hplen, hpayload, hop]
    exact hfields.symm

/-- Settles O15: the rule's lemma, and each operand read from its field. -/
theorem configOperandAssembly : Obligations.ConfigOperandAssembly := by
  intro p
  refine ⟨⟨?_, fun ⟨h8, hl⟩ => ⟨_, decodePayload_config_iff.2 ⟨h8, hl, rfl⟩⟩⟩, ?_⟩
  · rintro ⟨i, hi⟩
    obtain ⟨h8, hl, -⟩ := decodePayload_config_iff.1 hi
    exact ⟨h8, hl⟩
  · intro i hi
    obtain ⟨h8, -, rfl⟩ := decodePayload_config_iff.1 hi
    have hk : (BitVec.ofNat 16 (leValue (slice p 6 2))).toNat = leValue (slice p 6 2) :=
      toNat_ofNat_leValue (length_slice p 6 2 (by omega))
    refine ⟨_, _, _, rfl, toNat_ofNat_leValue (length_slice p 0 6 (by omega)), hk, ?_, fun j hj => ?_⟩
    · rw [length_seedsOfBytes, hk]
    · rw [getD_seedsOfBytes _ _ _ (hk ▸ hj), slice_drop]

/-- Settles O16: the rule's lemma, which the characterisation of the records gives. -/
theorem addvOperandAssembly : Obligations.AddvOperandAssembly :=
  fun _ _ => decodePayload_addv_iff

/-- Settles O17: the rules' lemmas. -/
theorem operandAssemblyOfOtherCommands : Obligations.OperandAssemblyOfOtherCommands := by
  intro p
  rw [List.length_eq_zero_iff]
  exact ⟨fun _ => decodePayload_setbit_iff, fun _ => decodePayload_getbit_iff, rfl, rfl, rfl, decodePayload_clear_iff,
    decodePayload_serialize_iff⟩

/-- Settles O10: each message is evaluated. -/
theorem specMessagesDecode : Obligations.SpecMessagesDecode :=
  ⟨rfl, rfl, rfl, rfl, rfl, rfl, rfl, rfl, rfl⟩

end

section
/-! ### Responses: one for each command message, its frame and its payload -/

namespace Sys2Proof.Machine

theorem statusByte_le_nine (st : Status) : (statusByte st).toNat ≤ 9 := by cases st <;> decide

theorem length_imageMessage (m : Index) (k : Byte) (seeds : List Seed) (buffer : Message) :
    (imageMessage m k seeds buffer).length = 8 + 4 * seeds.length + buffer.length := by
  simp [imageMessage]; omega

/-- A step takes one event, and answers it if it is a command message that no reset cuts (R50, R201, R203). -/
theorem step_answers {s : State} {e : HostEvent} {rest : List HostEvent} (h : s.inbox = e :: rest) :
    ∃ t, step s = .next t ∧ t.inbox = rest ∧ t.out.length = s.out.length + if e.answered then 1 else 0 := by
  cases e with
  | command M =>
    obtain ⟨s', st, payload, hstep, hin, hout, -⟩ := step_command_cases h
    exact ⟨_, hstep, hin, by rw [State.emit_out, hout, List.length_append]; rfl⟩
  | reset => exact ⟨_, step_afterReset h nofun, rfl, rfl⟩
  | commandCut M => exact ⟨_, step_afterReset h nofun, rfl, rfl⟩

/-- A run takes the events one by one. -/
theorem run_answers (events : List HostEvent) {s : State} (h : s.inbox = events) :
    ∃ t, Host.Core.run Sys2Proof.core events.length s = .next t ∧ t.inbox = [] ∧
      t.out.length = s.out.length + events.countP HostEvent.answered := by
  induction events generalizing s with
  | nil => exact ⟨s, rfl, h, rfl⟩
  | cons e rest ih =>
    obtain ⟨s', hstep, hin, hout⟩ := step_answers h
    obtain ⟨t, hrun, hdone, hcount⟩ := ih hin
    refine ⟨t, (run_of_step _ hstep).trans hrun, hdone, ?_⟩
    rw [hcount, hout, List.countP_cons]; omega

/-- A message that is rejected for the cause `e` is answered with its status (R54, R171). -/
theorem step_of_decode_error {s : State} {M : Message} {rest : List HostEvent} {e : DecodeError}
    (h : s.inbox = .command M :: rest) (hd : decode M = .error e) :
    step s = .next (({ s with inbox := rest } : State).emit [statusByte e.status, 0, 0, 0, 0, 0, 0, M.getD 0 0]) := by
  rw [step_command h, takeCommand_error hd]; rfl

theorem step_of_decode_ok {s : State} {M : Message} {rest : List HostEvent} {i : Instr}
    (h : s.inbox = .command M :: rest) (hd : decode M = .ok i) : step s = exec i { s with inbox := rest } := by
  rw [step_command h, takeCommand_ok hd]

theorem boolByte_eq (b : Bool) : boolByte b = 0x01 ∨ boolByte b = 0x00 := by cases b <;> decide

/-! The payloads of the responses with status `OK`, by kind of command (R64). -/

namespace EffectOf

variable {i : Instr} {s s' : State} {payload : Message}

theorem payload_of_query (h : EffectOf i s s' payload) (hop : i.op = .getbit ∨ i.op = .has) :
    payload = [0x01] ∨ payload = [0x00] := by
  obtain ⟨b, rfl⟩ : ∃ b, payload = [boolByte b] := by
    cases i with
    | getbit j => obtain ⟨-, -, rfl, -⟩ := h; exact ⟨_, rfl⟩
    | has x => obtain ⟨-, -, rfl, -⟩ := h; exact ⟨_, rfl⟩
    | _ => simp [Instr.op] at hop
  exact (boolByte_eq b).imp (congrArg ([·])) (congrArg ([·]))

theorem length_payload_of_serialize (h : EffectOf i s s' payload) (hop : i.op = .serialize) :
    payload.length = 8 + 4 * s.k.toNat + ceil8 s.bitcount.toNat := by
  cases i with
  | serialize =>
    obtain ⟨-, -, rfl, -⟩ := h
    rw [length_imageMessage, State.length_liveSeeds, State.length_liveBuffer, State.liveBytes]
  | _ => cases hop

theorem payload_eq_nil (h : EffectOf i s s' payload) (hg : i.op ≠ .getbit) (hh : i.op ≠ .has) (hs : i.op ≠ .serialize) :
    payload = [] := by
  cases i with
  | config m k seeds => obtain ⟨-, -, -, hp, -⟩ := h; exact hp
  | setbit j => obtain ⟨-, -, hp, -⟩ := h; exact hp
  | getbit j => exact absurd rfl hg
  | add x => obtain ⟨-, -, hp, -⟩ := h; exact hp
  | addv xs => obtain ⟨-, -, hp, -⟩ := h; exact hp
  | has x => exact absurd rfl hh
  | clear => obtain ⟨-, hp, -⟩ := h; exact hp
  | serialize => exact absurd rfl hs
  | load I => obtain ⟨-, hp, -⟩ := h; exact hp

end EffectOf

end Sys2Proof.Machine

open Sys2Proof Sys2Proof.Machine

/-- Settles O6: by induction on the events of the inbox, one step for each. -/
theorem everyRunEndsAndAnswers : Obligations.EveryRunEndsAndAnswers :=
  fun _ => run_answers _ rfl

/-- Settles O7: the fields of the one response that a step on a command message emits. -/
theorem oneFramedResponsePerCommand : Obligations.OneFramedResponsePerCommand := by
  intro s M rest h
  obtain ⟨s', st, payload, hstep, hin, hout, hfits, hfault⟩ := step_command_cases h
  refine ⟨_, responseMessage st (headerOpcode M) payload, hstep, hin, by rw [State.emit_out, hout], ?_, ?_,
    getD_responseMessage_seven .., ?_⟩
  · rw [length_responseMessage, slice_responseMessage hfits]
  · rw [getD_responseMessage_zero]; exact statusByte_le_nine st
  · rw [getD_responseMessage_zero, statusByte_ne_zero_iff, length_responseMessage]
    intro hst
    rw [(hfault hst).2]; rfl

/-- Settles O5: a step takes the message, and a message that decodes is executed. -/
theorem stepRunsDecodedCommand : Obligations.StepRunsDecodedCommand :=
  fun _ _ _ _ => step_of_decode_ok

/-- Settles O13: each step of R54 decides `decode`, which decides the step of the machine. -/
theorem decodeStepsInOrder : Obligations.DecodeStepsInOrder := by
  intro s M rest h
  refine ⟨fun h8 => ?short, fun h8 hl => ?length, fun h8 hl hop => ?opcode, fun op h8 hl hop hr => ?rsv,
    fun op h8 hl hop hr hp => ?shape, fun op i h8 hl hop hr hp => ?run⟩
  case short => exact step_of_decode_error h (decode_of_short h8)
  case length => exact step_of_decode_error h (decode_of_length_ne h8 hl)
  case opcode =>
    have hillegal : Op.ofByte (headerOpcode M) = none :=
      (Op.ofByte_eq_none_iff _).2 (hop.imp_left fun h0 => congrArg BitVec.toNat h0)
    exact step_of_decode_error h (decode_of_illegal h8 hl hillegal)
  case rsv => exact step_of_decode_error h ((decode_of_legal h8 hl hop).trans (if_pos hr))
  case shape =>
    have hd : decode M = .error .payloadShape := by
      rw [decode_of_legal h8 hl hop, if_neg (show ¬ headerRsv M ≠ 0 from not_not.2 hr), hp]
    exact step_of_decode_error h hd
  case run => exact step_of_decode_ok h ((decode_ok_iff M i).2 ⟨h8, hl, op, hop.symm, hr, hp⟩)

/-- Settles O23: the response says its status and its payload, which are the effect's or a fault's. -/
theorem responsePayloads : Obligations.ResponsePayloads := by
  intro i s t st payload hx hout
  rcases exec_cases i s with ⟨s', p, he, hx'⟩ | ⟨st', hst', hx'⟩
  · cases hx.symm.trans hx'
    rw [State.emit_out, he.channels.2, List.append_cancel_left_eq, List.cons.injEq] at hout
    obtain ⟨rfl, -, rfl⟩ := responseMessage_inj hout.1
    exact ⟨fun hne => absurd rfl hne, fun _ => ⟨he.payload_of_query, he.length_payload_of_serialize, he.payload_eq_nil⟩⟩
  · cases hx.symm.trans hx'
    rw [State.emit_out, List.append_cancel_left_eq, List.cons.injEq] at hout
    obtain ⟨rfl, -, rfl⟩ := responseMessage_inj hout.1
    exact ⟨fun _ => rfl, fun hok => absurd hok hst'⟩

end

section
/-! ### Construction: CONFIG, and the replacement of the Filter by CONFIG and LOAD -/

namespace Sys2Proof.Machine

/-- The effect of `CONFIG` and of `LOAD` gives a value to each of the five items of R10 and takes none from the state before (R83, R140). -/
theorem EffectOf.of_same_channels {i : Instr} {s s' u : State} {payload : Message} (h : EffectOf i s u payload)
    (hop : i.op = .config ∨ i.op = .load) (hin : s'.inbox = s.inbox) (hout : s'.out = s.out) : EffectOf i s' u payload := by
  cases i with
  | config m k seeds =>
    obtain ⟨hm, hmax, hkmax, hp, rfl⟩ := h
    exact ⟨hm, hmax, hkmax, hp, by rw [hin, hout]⟩
  | load I =>
    obtain ⟨hI, hp, rfl⟩ := h
    exact ⟨hI, hp, by rw [hin, hout]⟩
  | _ => simp [Instr.op] at hop

/-- The Filter value of an engine that lists no byte: every byte of its buffer is zero (R18). -/
theorem State.filter_of_buf_nil {s : State} (hk : s.seeds.length = s.k.toNat) (hb : s.buf = []) :
    s.filter = ⟨s.bitcount, s.seeds, List.replicate (ceil8 s.bitcount.toNat) 0x00⟩ := by
  rw [State.filter, State.liveSeeds_of_counted hk, State.liveBuffer, hb, Memory.readRange_nil]
  rfl

section
variable {c : Config} {m : Index} {k : Count}

theorem configOn_of_zero (hm : m = 0) (seeds : List Seed) (s : State) :
    configOn c m k seeds s = raiseFault .config Op.config.byte s := if_pos hm

theorem configOn_of_maxBits_lt (hm : m ≠ 0) (hmax : c.maxBits < m.toNat) (seeds : List Seed) (s : State) :
    configOn c m k seeds s = raiseFault .capacity Op.config.byte s := by
  rw [configOn, if_neg hm, if_pos hmax]

theorem configOn_of_kMax_lt (hm : m ≠ 0) (hmax : m.toNat ≤ c.maxBits) (hkmax : c.kMax.toNat < k.toNat) (seeds : List Seed)
    (s : State) : configOn c m k seeds s = raiseFault .capacity Op.config.byte s := by
  rw [configOn, if_neg hm, if_neg (Nat.not_lt.2 hmax), if_pos hkmax]

theorem configOn_of_fit (hm : m ≠ 0) (hmax : m.toNat ≤ c.maxBits) (hkmax : k.toNat ≤ c.kMax.toNat) (seeds : List Seed)
    (s : State) : configOn c m k seeds s =
      respond .config [] { s with valid := true, bitcount := m, k := k, seeds := seeds, buf := [] } := by
  rw [configOn, if_neg hm, if_neg (Nat.not_lt.2 hmax), if_neg (Nat.not_lt.2 hkmax)]

/-- Within the capacities `CONFIG` is answered `OK` and leaves the new Filter, with every byte of its buffer zero (R82, R18). -/
theorem configOn_completes (hm : m ≠ 0) (hmax : m.toNat ≤ c.maxBits) (hkmax : k.toNat ≤ c.kMax.toNat) {seeds : List Seed}
    (hk : seeds.length = k.toNat) (s : State) :
    ∃ t, configOn c m k seeds s = .next t ∧ t.valid = true ∧ t.k = k ∧
      t.filter = ⟨m, seeds, List.replicate (ceil8 m.toNat) 0x00⟩ ∧ (∀ a, a < ceil8 m.toNat → t.buf.read a = 0x00) ∧
      t.inbox = s.inbox ∧ t.out = s.out ++ [[0x00, 0, 0, 0, 0, 0, 0, 0x01]] :=
  ⟨_, configOn_of_fit hm hmax hkmax seeds s, rfl, rfl, State.filter_of_buf_nil hk rfl, fun a _ => Memory.read_nil a, rfl, rfl⟩

end

end Sys2Proof.Machine

open Sys2Proof Sys2Proof.Machine

/-- Settles O24: the effect on one state is the effect on every state with the same channels, and a command whose checks pass has its effect. -/
theorem configAndLoadReplaceFilterWhole : Obligations.ConfigAndLoadReplaceFilterWhole := by
  intro i s s' t hop hin hout hc
  obtain ⟨u, payload, he, rfl⟩ := completesOk_iff.1 hc
  exact exec_of_effect (he.of_same_channels hop hin hout)

/-- Settles O28: one equation of `configOn` for each of its checks, and its effect where all of them pass. -/
theorem configChecksAndEffect : Obligations.ConfigChecksAndEffect := fun _ _ _ seeds s hk =>
  ⟨fun hm => configOn_of_zero hm seeds s,
    fun hm hmax => configOn_of_maxBits_lt hm hmax seeds s,
    fun hm hmax hkmax => configOn_of_kMax_lt hm hmax hkmax seeds s,
    fun hm hmax hkmax => configOn_completes hm hmax hkmax hk s,
    rfl⟩

/-- Settles O29: the completion of `CONFIG` on the model's own engine. -/
theorem configCompletes : Obligations.ConfigCompletes := by
  intro m k seeds s hk hpos hmax hkmax
  have hm : m ≠ 0 := by rintro rfl; exact absurd hpos (by decide)
  obtain ⟨t, hx, hv, htk, hf, -, hin, hout⟩ := configOn_completes hm hmax hkmax hk s
  exact ⟨t, hx, hv, htk, hf, hin, hout⟩

end

section
/-! ### Bit storage: the mapper, SETBIT and GETBIT, and the round trip of a bit -/

namespace Sys2Proof.Machine

theorem shiftRight_three_eq_byteIndex (i : Nat) : i >>> 3 = byteIndex i := Nat.shiftRight_eq_div_pow i 3

theorem and_seven_eq_bitOffset (i : Nat) : i &&& 7 = bitOffset i := Nat.and_two_pow_sub_one_eq_mod i 3

theorem shiftRight_and_one_eq_one_iff (v : Byte) (p : Nat) : v >>> p &&& 1#8 = 1#8 ↔ v.getLsbD p = true := by
  rw [BitVec.and_one_eq_setWidth_ofBool_getLsbD, BitVec.getLsbD_ushiftRight, Nat.add_zero]
  cases v.getLsbD p <;> decide

/-- The one-byte answer of `GETBIT` and `HAS`, byte by byte (R52, R64). -/
theorem responseMessage_singleton (st : Status) (echo b : Byte) :
    responseMessage st echo [b] = [statusByte st, 1, 0, 0, 0, 0, 0, echo, b] := by
  rw [responseMessage, List.length_singleton]
  rfl

/-! The commands on one bit: a lemma for each outcome. -/

section
variable {i : Index} {s : State}

theorem exec_setbit_of_lt (hv : s.valid = true) (hi : i.toNat < s.bitcount.toNat) :
    exec (.setbit i) s =
      .next (({ s with buf := s.buf.setBit i.toNat } : State).emit [0x00, 0, 0, 0, 0, 0, 0, 0x02]) :=
  withIndex_of_lt hv hi

theorem exec_getbit_of_lt (hv : s.valid = true) (hi : i.toNat < s.bitcount.toNat) :
    exec (.getbit i) s = .next (s.emit [0x00, 1, 0, 0, 0, 0, 0, 0x03, boolByte (s.buf.bit i.toNat)]) := by
  have hx : exec (.getbit i) s = respond .getbit [boolByte (s.buf.bit i.toNat)] s := withIndex_of_lt hv hi
  rw [hx, respond_eq, responseMessage_singleton]
  rfl

/-- The answer of `GETBIT` is the bit, and no other byte is. -/
theorem exec_getbit_iff (hv : s.valid = true) (hi : i.toNat < s.bitcount.toNat) {b : Byte} :
    exec (.getbit i) s = .next (s.emit [0x00, 1, 0, 0, 0, 0, 0, 0x03, b]) ↔ boolByte (s.buf.bit i.toNat) = b := by
  rw [exec_getbit_of_lt hv hi]
  simp [State.emit]

end

/-! Runs that take no bit away (R95, R118). -/

theorem State.nextTakesBits_of_reset {s : State} {e : HostEvent} {rest : List HostEvent} (h : s.inbox = e :: rest)
    (he : ∀ M, e ≠ .command M) : s.NextTakesBits := by
  rw [State.NextTakesBits, h]
  cases e with
  | command M => exact absurd rfl (he M)
  | reset => trivial
  | commandCut M => trivial

theorem State.nextTakesBits_of_completes {s t : State} {M : Message} {rest : List HostEvent} {i : Instr}
    (h : s.inbox = .command M :: rest) (hd : decode M = .ok i) (hop : i.op ∈ [Op.config, .clear, .load])
    (hc : CompletesOk i { s with inbox := rest } t) : s.NextTakesBits := by
  rw [State.NextTakesBits, h]
  exact ⟨i, t, hd, hop, hc⟩

/-- `t` has a Filter with the configuration of `s` and every bit that is 1 in `s`; its memory is canonical. -/
structure State.GrowsTo (s t : State) : Prop where
  valid : t.valid = true
  bitcount : t.bitcount = s.bitcount
  k : t.k = s.k
  seeds : t.seeds = s.seeds
  canonical : t.buf.wf = true
  bit : ∀ n, s.buf.bit n = true → t.buf.bit n = true

theorem State.growsTo_refl {s : State} (hv : s.valid = true) (hw : s.buf.wf = true) : s.GrowsTo s :=
  ⟨hv, rfl, rfl, rfl, hw, fun _ => id⟩

theorem State.GrowsTo.trans {s t u : State} (h : s.GrowsTo t) (h' : t.GrowsTo u) : s.GrowsTo u where
  valid := h'.valid
  bitcount := h'.bitcount.trans h.bitcount
  k := h'.k.trans h.k
  seeds := h'.seeds.trans h.seeds
  canonical := h'.canonical
  bit n hn := h'.bit n (h.bit n hn)

/-- A command other than `CONFIG`, `CLEAR` and `LOAD` only sets bits. -/
theorem EffectOf.growsTo {i : Instr} {s s' : State} {payload : Message} (h : EffectOf i s s' payload)
    (hop : i.op ∉ [Op.config, .clear, .load]) (hw : s.buf.wf = true) : s.GrowsTo s' := by
  have hne (op : Op) (ho : op ∈ [Op.config, .clear, .load]) : i.op ≠ op := fun e => hop (e ▸ ho)
  have hc := hne .config (by decide)
  have hl := hne .load (by decide)
  obtain ⟨hv, hs'⟩ := h.keeps_registers hc hl
  have hbit : ∀ n, s.buf.bit n = true → s'.buf.bit n = true := by
    intro n hn
    rcases h.buf_cases hc hl with ⟨hclear, -⟩ | ⟨-, hb⟩
    · exact absurd hclear (hne .clear (by decide))
    · rw [hb, Memory.bit_setBits hw, hn, Bool.true_or]
  have hw' := h.wf hw
  rw [hs'] at hw' hbit ⊢
  exact ⟨hv, rfl, rfl, rfl, hw', hbit⟩

/-- A step that takes no bits away lets the Filter grow. -/
theorem StepCase.growsTo {s t : State} (h : StepCase s t) (hkeep : ¬ s.NextTakesBits) (hv : s.valid = true)
    (hw : s.buf.wf = true) : s.GrowsTo t := by
  cases h with
  | idle => exact State.growsTo_refl hv hw
  | reset hin he => exact absurd (State.nextTakesBits_of_reset hin he) hkeep
  | fault => exact ⟨hv, rfl, rfl, rfl, hw, fun _ => id⟩
  | ok hin hd he =>
    have hop : _ ∉ [Op.config, .clear, .load] := fun hop =>
      hkeep (State.nextTakesBits_of_completes hin hd hop (completesOk_iff.2 ⟨_, _, he, rfl⟩))
    obtain ⟨hv', hm, hk, hs, hw', hbit⟩ := he.growsTo hop hw
    exact ⟨hv', hm, hk, hs, hw', hbit⟩

/-- Along a run that takes no bits away the Filter grows. -/
theorem KeepsBits.growsTo {s t : State} (h : KeepsBits s t) (hv : s.valid = true) (hw : s.buf.wf = true) : s.GrowsTo t := by
  induction h with
  | here => exact State.growsTo_refl hv hw
  | after _ hkeep hstep ih => exact ih.trans ((stepCase_of_step hstep).growsTo hkeep ih.valid ih.canonical)

end Sys2Proof.Machine

open Sys2Proof Sys2Proof.Machine

/-- Settles O31: shift and mask are division and remainder by 8, and both forms of a bit's value are its place in its byte. -/
theorem mapperIsDivisionByEight : Obligations.MapperIsDivisionByEight := by
  refine ⟨fun i => ?forms, fun i m hi => ?bounds, fun mem i => ?value, fun i => ?index, fun a p hp => ?inverse⟩
  case forms =>
    rw [shiftRight_three_eq_byteIndex, and_seven_eq_bitOffset]
    exact ⟨rfl, rfl, rfl, rfl, rfl⟩
  case bounds =>
    have hin : byteIndex i < ceil8 m.toNat := div_lt_ceil8 hi
    exact ⟨hin, hin.trans_le (ceil8_lt m.isLt)⟩
  case value =>
    rw [shiftRight_three_eq_byteIndex, and_seven_eq_bitOffset, shiftRight_and_one_eq_one_iff]
    exact ⟨Bool.eq_iff_iff.1 (Memory.bit_eq_getLsbD mem i), bne_iff_ne⟩
  case index => exact ⟨Nat.mod_lt i (by decide), Nat.div_add_mod i 8⟩
  case inverse => simp only [byteIndex, bitOffset]; omega

/-- Settles O32: the outcomes of the two checks, and the OR-write of the mask where both pass. -/
theorem setbitEffect : Obligations.SetbitEffect := by
  intro i s hw
  refine ⟨fun hv => withFilter_of_invalid hv, fun hv hi => withIndex_of_ge hv hi, fun hv hi => ?_⟩
  refine ⟨_, exec_setbit_of_lt hv hi, rfl, ?_, fun a ha => ?_⟩
  · exact (Memory.read_setBit hw _ _).trans (if_pos rfl)
  · exact (Memory.read_setBit hw _ _).trans (if_neg ha)

/-- Settles O33: the outcomes of the two checks, and the bit where both pass. -/
theorem getbitAnswer : Obligations.GetbitAnswer := by
  intro i s
  refine ⟨fun hv => withFilter_of_invalid hv, fun hv hi => withIndex_of_ge hv hi, fun hv hi => ?_⟩
  refine (exec_getbit_iff hv hi).2 ?_
  simp only [boolByte, Memory.bit, bitMask, bne_iff_ne]

/-- Settles O34: (a) by the zeros `CONFIG` and `CLEAR` leave, (b) by the growth of the Filter along the run, (c) by the frame of one bit. -/
theorem bitRoundTrip : Obligations.BitRoundTrip := by
  refine ⟨fun j s t i hop hc hi => ?zeroed, fun i s t u hw hc hrun => ?kept, fun i j s t b hw hne hi hc hb => ?frame⟩
  case zeroed =>
    obtain ⟨s', payload, he, rfl⟩ := completesOk_iff.1 hc
    have hbit : s'.buf.bit i.toNat = false := he.bit_of_zeroes hop (hi.trans_le (le_ceil8_mul _))
    refine (exec_getbit_iff ?_ hi).2 (congrArg boolByte hbit)
    exact he.valid
  case kept =>
    obtain ⟨_, payload, ⟨hv, hi, -, rfl⟩, rfl⟩ := completesOk_iff.1 hc
    have hgrow := hrun.growsTo hv (Memory.wf_setBit hw _)
    have hset : (s.buf.setBit i.toNat).bit i.toNat = true := by simp [Memory.bit_setBit hw]
    have hi' : i.toNat < u.bitcount.toNat := by rw [hgrow.bitcount]; exact hi
    exact (exec_getbit_iff hgrow.valid hi').2 (congrArg boolByte (hgrow.bit _ hset))
  case frame =>
    obtain ⟨_, payload, ⟨hv, -, -, rfl⟩, rfl⟩ := completesOk_iff.1 hc
    have hbit : (s.buf.setBit j.toNat).bit i.toNat = s.buf.bit i.toNat :=
      Memory.bit_setBits_of_not_mem (idxs := [j.toNat]) hw (by simpa using fun e => hne (BitVec.eq_of_toNat_eq e))
    refine (exec_getbit_iff ?_ ?_).2 ?_
    · exact hv
    · exact hi
    · exact (congrArg boolByte hbit).trans ((exec_getbit_iff hv hi).1 hb)

end

section
/-! ### Lanes: the remainders of the hash, in seed order -/

namespace Sys2Proof.Machine

/-- R103: entry `j` of `Lanes(x)` is the lane of `SEED[j]`. -/
theorem getD_lanes (c : Config) {s : State} (x : Message) {j : Nat} (hj : j < s.k.toNat) :
    (lanes c s x).getD j 0 = laneIndex c s.bitcount x (s.seed j) := by
  simp [lanes, State.liveSeeds, hj]

/-- R102: by a power of two the remainder is the low bits of the hash. -/
theorem laneIndex_of_two_pow (c : Config) {m : Index} {p : Nat} (hm : m.toNat = 2 ^ p) (x : Message) (seed : Seed) :
    laneIndex c m x seed = (c.hash64 x seed).toNat &&& (m.toNat - 1) := by
  rw [laneIndex, hm, Nat.and_two_pow_sub_one_eq_mod]

end Sys2Proof.Machine

open Sys2Proof Sys2Proof.Machine

/-- Settles O35: each entry is the lane of its seed, a remainder by a positive `BITCOUNT`. -/
theorem lanesAreHashRemainders : Obligations.LanesAreHashRemainders := by
  intro c s x hm
  refine ⟨length_lanes c s x, fun j hj => ?_⟩
  rw [getD_lanes c x hj]
  exact ⟨rfl, Nat.mod_lt _ hm, fun p hp => laneIndex_of_two_pow c hp x (s.seed j)⟩

end

section
/-! ### Insertion and membership: ADD, ADDV and HAS, and no false negatives -/

namespace Sys2Proof.Machine

namespace Memory

/-- Bit `i` by shift and mask (R90). -/
theorem shiftRight_and_one_eq_one_iff_bit (mem : Memory) (i : Nat) :
    mem.read (byteIndex i) >>> bitOffset i &&& 1#8 = 1#8 ↔ mem.bit i = true := by
  rw [shiftRight_and_one_eq_one_iff, bit_eq_getLsbD, byteIndex, bitOffset]

theorem setBits_append (mem : Memory) (idxs idxs' : List Nat) :
    mem.setBits (idxs ++ idxs') = (mem.setBits idxs).setBits idxs' :=
  List.foldl_append

/-- Setting bits that are 1 changes nothing (R113). -/
theorem setBits_of_all_set {mem : Memory} (hw : mem.wf = true) {idxs : List Nat} (h : ∀ i ∈ idxs, mem.bit i = true) :
    mem.setBits idxs = mem := by
  refine ext_bits (wf_setBits hw idxs) hw fun j => ?_
  by_cases hj : j ∈ idxs
  · rw [bit_setBits hw, h j hj, Bool.true_or]
  · exact bit_setBits_of_not_mem hw hj

end Memory

theorem orOfMasks_nil (a : Nat) : orOfMasks [] a = 0x00#8 := rfl

theorem orOfMasks_eq_foldl_or (idxs : List Nat) (a : Nat) :
    orOfMasks idxs a = ((idxs.filter fun i => byteIndex i = a).map bitMask).foldl (· ||| ·) 0x00#8 :=
  List.foldl_map.symm

theorem orOfMasks_cons (i : Nat) (idxs : List Nat) (a : Nat) :
    orOfMasks (i :: idxs) a = if byteIndex i = a then bitMask i ||| orOfMasks idxs a else orOfMasks idxs a := by
  simp only [orOfMasks_eq_foldl_or, List.filter_cons, decide_eq_true_eq]
  split
  · rw [List.map_cons, List.foldl_cons, BitVec.or_comm, List.foldl_assoc]
  · rfl

/-- The OR accumulator on bytes: each becomes itself OR the masks of the indices that address it (R112). -/
theorem Memory.read_setBits {mem : Memory} (hw : mem.wf = true) (idxs : List Nat) (a : Nat) :
    (mem.setBits idxs).read a = mem.read a ||| orOfMasks idxs a := by
  induction idxs generalizing mem with
  | nil => rw [setBits_nil, orOfMasks_nil, BitVec.or_zero]
  | cons i idxs ih =>
    rw [setBits_cons, ih (wf_setBit hw i), read_setBit hw, orOfMasks_cons]
    by_cases ha : byteIndex i = a
    · rw [if_pos ha, if_pos (show a = i / 8 from ha.symm), BitVec.or_assoc]
    · rw [if_neg ha, if_neg (show a ≠ i / 8 from Ne.symm ha)]

/-- Lanes, with the remainder written out (R102, R103). -/
theorem mem_lanes {c : Config} {s : State} {x : Message} {i : Nat} :
    i ∈ lanes c s x ↔ ∃ d ∈ s.liveSeeds, i = (c.hash64 x d).toNat % s.bitcount.toNat := by
  simp only [lanes, List.mem_map, laneIndex, eq_comm]

/-- With no seeds there are no lanes (R117). -/
theorem lanes_of_k_eq_zero (c : Config) {s : State} (hk : s.k = 0) (x : Message) : lanes c s x = [] :=
  List.eq_nil_of_length_eq_zero (by rw [length_lanes, hk]; rfl)

/-! The commands on items: a lemma for each outcome. -/

section
variable {x : Message} {xs : List Message} {s : State}

theorem exec_add_of_fit (hv : s.valid = true) (hx : x.length ≤ Config.engine.itemMax.toNat) :
    exec (.add x) s = .next
      (({ s with buf := s.buf.setBits (lanes Config.engine s x) } : State).emit [0x00, 0, 0, 0, 0, 0, 0, 0x04]) :=
  exec_of_effect (i := .add x) ⟨hv, hx, rfl, rfl⟩

theorem exec_add_of_long (hv : s.valid = true) (hx : Config.engine.itemMax.toNat < x.length) :
    exec (.add x) s = .next (s.emit [0x05, 0, 0, 0, 0, 0, 0, 0x04]) :=
  withItems_of_long hv (List.mem_singleton_self x) hx

theorem exec_addv_of_fit (hv : s.valid = true) (hxs : ∀ x ∈ xs, x.length ≤ Config.engine.itemMax.toNat) :
    exec (.addv xs) s = .next
      (({ s with buf := s.buf.setBits (xs.flatMap (lanes Config.engine s)) } : State).emit [0x00, 0, 0, 0, 0, 0, 0, 0x05]) :=
  exec_of_effect (i := .addv xs) ⟨hv, hxs, rfl, rfl⟩

theorem exec_has_of_fit (hv : s.valid = true) (hx : x.length ≤ Config.engine.itemMax.toNat) :
    exec (.has x) s = .next (s.emit [0x00, 1, 0, 0, 0, 0, 0, 0x06, boolByte (s.buf.allBits (lanes Config.engine s x))]) := by
  rw [exec_of_effect (i := .has x) ⟨hv, hx, rfl, rfl⟩, responseMessage_singleton]
  rfl

theorem exec_has_of_long (hv : s.valid = true) (hx : Config.engine.itemMax.toNat < x.length) :
    exec (.has x) s = .next (s.emit [0x05, 0, 0, 0, 0, 0, 0, 0x06]) :=
  withItems_of_long hv (List.mem_singleton_self x) hx

end

/-- Adds one after another set the bits of every item's lanes and are answered `OK`, each by its own response (R111, R114). -/
theorem execSeq_adds {xs : List Message} {s : State} (hv : s.valid = true)
    (hxs : ∀ x ∈ xs, x.length ≤ Config.engine.itemMax.toNat) :
    execSeq (xs.map .add) s = .next { s with
      buf := s.buf.setBits (xs.flatMap (lanes Config.engine s))
      out := s.out ++ List.replicate xs.length [0x00, 0, 0, 0, 0, 0, 0, 0x04] } := by
  induction xs generalizing s with
  | nil => simp [execSeq]
  | cons x xs ih =>
    rw [List.forall_mem_cons] at hxs
    rw [List.map_cons, execSeq, exec_add_of_fit hv hxs.1]
    refine (ih ?_ hxs.2).trans ?_
    · exact hv
    · rw [List.flatMap_cons, Memory.setBits_append, List.length_cons, List.replicate_succ, List.append_cons]
      rfl

/-! What a Filter holds (R115, R118). -/

/-- A Filter that grows keeps its seeds. -/
theorem State.GrowsTo.liveSeeds {s t : State} (h : s.GrowsTo t) : t.liveSeeds = s.liveSeeds := by
  have hseed : t.seed = s.seed := funext fun j => by rw [State.seed, State.seed, h.seeds]
  rw [State.liveSeeds, State.liveSeeds, h.k, hseed]

/-- There is a Filter, and it has every bit of the item's lanes; the item is within `ITEMMAX`. -/
structure State.Holds (s : State) (x : Message) : Prop where
  valid : s.valid = true
  fits : x.length ≤ Config.engine.itemMax.toNat
  bit : ∀ i ∈ lanes Config.engine s x, s.buf.bit i = true

namespace State.Holds

variable {s t : State} {x : Message}

theorem emit (h : s.Holds x) (P : Message) : (s.emit P).Holds x := ⟨h.valid, h.fits, h.bit⟩

/-- `HAS` answers true for an item that the Filter holds. -/
theorem exec_has (h : s.Holds x) : exec (.has x) s = .next (s.emit [0x00, 1, 0, 0, 0, 0, 0, 0x06, 0x01]) := by
  rw [exec_has_of_fit h.valid h.fits, (Memory.allBits_iff _ _).2 h.bit]
  rfl

/-- `ADD` of an item that the Filter holds changes nothing but its response. -/
theorem exec_add (h : s.Holds x) (hw : s.buf.wf = true) :
    exec (.add x) s = .next (s.emit [0x00, 0, 0, 0, 0, 0, 0, 0x04]) := by
  rw [exec_add_of_fit h.valid h.fits, Memory.setBits_of_all_set hw h.bit]

/-- A Filter that grows goes on holding what it holds. -/
theorem of_growsTo (h : s.Holds x) (hg : s.GrowsTo t) : t.Holds x := by
  refine ⟨hg.valid, h.fits, fun i hi => hg.bit i (h.bit i ?_)⟩
  rwa [lanes_congr _ hg.bitcount hg.liveSeeds] at hi

/-- Equal engines hold the same items. -/
theorem of_sameEngine (h : s.Holds x) (he : s.SameEngine t) (hm : 1 ≤ s.bitcount.toNat) : t.Holds x := by
  refine ⟨he.1 ▸ h.valid, h.fits, fun i hi => ?_⟩
  rw [← he.lanes h.valid] at hi
  rw [← he.bit h.valid (lanes_lt hm hi)]
  exact h.bit i hi

end State.Holds

/-- Setting every bit of an item's lanes, and possibly more, puts the item into the Filter. -/
theorem State.holds_of_setBits {s : State} {x : Message} {idxs : List Nat} (hv : s.valid = true)
    (hx : x.length ≤ Config.engine.itemMax.toNat) (hw : s.buf.wf = true) (hsub : lanes Config.engine s x ⊆ idxs) :
    State.Holds { s with buf := s.buf.setBits idxs } x := by
  refine ⟨hv, hx, fun i hi => ?_⟩
  have hmem : i ∈ idxs := hsub hi
  rw [Memory.bit_setBits hw, decide_eq_true hmem, Bool.or_true]

namespace CompletesOk

variable {i : Instr} {s t : State} {x : Message}

theorem canonical (h : CompletesOk i s t) (hw : s.buf.wf = true) : t.buf.wf = true := by
  obtain ⟨s', payload, he, rfl⟩ := completesOk_iff.1 h
  exact he.wf hw

/-- The Filter holds an item that `ADD` added. -/
theorem holds_of_add (h : CompletesOk (.add x) s t) (hw : s.buf.wf = true) : t.Holds x := by
  obtain ⟨_, payload, ⟨hv, hx, -, rfl⟩, rfl⟩ := completesOk_iff.1 h
  exact (State.holds_of_setBits hv hx hw (List.Subset.refl _)).emit _

/-- The Filter holds every item of an `ADDV` that added them. -/
theorem holds_of_addv {xs : List Message} (h : CompletesOk (.addv xs) s t) (hw : s.buf.wf = true) (hmem : x ∈ xs) :
    t.Holds x := by
  obtain ⟨_, payload, ⟨hv, hxs, -, rfl⟩, rfl⟩ := completesOk_iff.1 h
  exact (State.holds_of_setBits hv (hxs x hmem) hw fun _ hi => List.mem_flatMap.2 ⟨x, hmem, hi⟩).emit _

end CompletesOk

/-! A Filter through its image and back (R130, R138). -/

theorem imageSeeds_imageMessage (m : Index) {k : Byte} {seeds : List Seed} (hk : seeds.length = k.toNat) (buffer : Message) :
    imageSeeds (imageMessage m k seeds buffer) = seeds := by
  rw [imageSeeds, imageSeedCount_imageMessage, drop_imageMessage, ← hk, seedsOfBytes_bytesOfSeeds]

theorem imageBuffer_imageMessage (m : Index) {k : Byte} {seeds : List Seed} (hk : seeds.length = k.toNat) (buffer : Message) :
    imageBuffer (imageMessage m k seeds buffer) = buffer := by
  rw [imageBuffer, imageSeedCount_imageMessage, ← List.drop_drop, drop_imageMessage, ← hk]
  exact List.drop_left' (length_bytesOfSeeds seeds)

/-- The Filter value of an engine whose memory was loaded: the buffer is the bytes it was loaded with. -/
theorem State.filter_of_buf_ofBytesAt {s : State} {bytes : Message} (hk : s.seeds.length = s.k.toNat)
    (hlen : bytes.length = s.liveBytes) (hb : s.buf = Memory.ofBytesAt 0 bytes) : s.filter = ⟨s.bitcount, s.seeds, bytes⟩ := by
  rw [State.filter, State.liveSeeds_of_counted hk, State.liveBuffer, hb, ← hlen, Memory.readRange_ofBytesAt]

/-- A `LOAD` of a Filter's image that is answered `OK`, in any state, gives an engine equal to the one the image is of (R142). -/
theorem EffectOf.sameEngine_of_load {s v w : State} {payload : Message} (hv : s.valid = true) (hk : s.k.toNat ≤ 255)
    (h : EffectOf (.load (imageMessage s.bitcount (s.k.setWidth 8) s.liveSeeds s.liveBuffer)) v w payload) :
    s.SameEngine w := by
  have hbyte : (s.k.setWidth 8).toNat = s.k.toNat := by rw [BitVec.toNat_setWidth]; omega
  have hcount : s.liveSeeds.length = (s.k.setWidth 8).toNat := by rw [State.length_liveSeeds, hbyte]
  obtain ⟨-, -, hw⟩ := h
  simp only [imageBitCount_imageMessage, imageSeedCount_imageMessage, imageSeeds_imageMessage _ hcount,
    imageBuffer_imageMessage _ hcount, hbyte, BitVec.ofNat_toNat, BitVec.setWidth_eq] at hw
  subst hw
  refine ⟨hv, fun _ => .symm (.trans (State.filter_of_buf_ofBytesAt ?_ ?_ rfl) rfl)⟩
  · exact s.length_liveSeeds
  · exact s.length_liveBuffer

end Sys2Proof.Machine

open Sys2Proof Sys2Proof.Machine

/-- Settles O43: what an insertion put into the Filter stays while the Filter grows, and an equal engine holds it too. -/
theorem noFalseNegatives : Obligations.NoFalseNegatives := by
  intro x s t u hw hins hrun
  obtain ⟨ht, hwt⟩ : t.Holds x ∧ t.buf.wf = true := by
    rcases hins with hadd | ⟨xs, hmem, hadd⟩
    · exact ⟨hadd.holds_of_add hw, hadd.canonical hw⟩
    · exact ⟨hadd.holds_of_addv hw hmem, hadd.canonical hw⟩
  have hu : u.Holds x := ht.of_growsTo (hrun.growsTo ht.valid hwt)
  refine ⟨hu.exec_has, fun I v w hser hload => ?_⟩
  obtain ⟨_, _, ⟨-, hk, -, -⟩, -⟩ := completesOk_iff.1 ⟨hser, I, rfl⟩
  rw [image_of_serialize hser] at hload
  obtain ⟨w', payload, he, rfl⟩ := completesOk_iff.1 hload
  have hsame : u.SameEngine w' := he.sameEngine_of_load hu.valid hk
  have hm : 1 ≤ u.bitcount.toNat := by
    rw [hsame.bitcount hu.valid]
    exact (he.inv_of_replaces (.inr rfl) rfl).bitcountPositive he.valid
  exact ((hu.of_sameEngine hsame hm).emit _).exec_has

/-- Settles O36: the outcomes of the two checks, and the OR accumulator on bytes and on bits where both pass. -/
theorem addEffect : Obligations.AddEffect := by
  intro x s
  refine ⟨fun hv => withFilter_of_invalid hv, exec_add_of_long, fun hw hv hx => ?_⟩
  exact ⟨_, exec_add_of_fit hv hx, rfl, fun a => Memory.read_setBits hw _ a, fun i => Memory.bit_setBits hw _ i⟩

/-- Settles O38: the Filter holds what was added; two orders give the same lanes; and the other commands let it grow. -/
theorem insertionIdempotentCommutingMonotone : Obligations.InsertionIdempotentCommutingMonotone := by
  refine ⟨fun x s t hw hc => ?idempotent, fun x y s hw hv hx hy => ?commuting, fun i s t n hw hx hs ht => ?monotone⟩
  case idempotent => exact (hc.holds_of_add hw).exec_add (hc.canonical hw)
  case commuting =>
    refine ⟨_, execSeq_adds (xs := [x, y]) hv (by simp [hx, hy]), ?_⟩
    rw [Memory.setBits_eq_of_mem_iff (idxs' := [y, x].flatMap (lanes Config.engine s)) hw (by simp [or_comm])]
    exact execSeq_adds (xs := [y, x]) hv (by simp [hx, hy])
  case monotone =>
    rcases exec_cases i s with ⟨s', payload, he, hx'⟩ | ⟨st, -, hx'⟩
    · cases hx.symm.trans hx'
      by_contra hop
      have hbit : s'.buf.bit n = true := (he.growsTo (by simpa [or_left_comm] using hop) hw).bit n hs
      exact absurd (hbit.symm.trans ht) (by decide)
    · cases hx.symm.trans hx'
      exact absurd (hs.symm.trans ht) (by decide)

/-- Settles O39: the order of the checks, and the effect of the `ADD`s one after another, which is that of the `ADDV`. -/
theorem addvIsAddInOrder : Obligations.AddvIsAddInOrder := by
  refine ⟨fun s M rest h h8 hl hop hr hp => ?format, fun xs s =>
    ⟨fun hv => withFilter_of_invalid hv, fun hv hlong => ?long, fun hv hxs => ?done⟩⟩
  case format =>
    obtain ⟨-, -, -, -, hshape, -⟩ := decodeStepsInOrder s M rest h
    exact hop ▸ hshape .addv h8 hl hop hr hp
  case long =>
    obtain ⟨x, hmem, hx⟩ := hlong
    exact withItems_of_long hv hmem hx
  case done => exact ⟨_, _, exec_addv_of_fit hv hxs, execSeq_adds hv hxs, rfl⟩

/-- Settles O40: the OR accumulator over the lanes of every item. -/
theorem addvSetsLanesOfEveryItem : Obligations.AddvSetsLanesOfEveryItem := by
  intro xs s hw hv hxs
  refine ⟨_, exec_addv_of_fit hv hxs, rfl, fun i => ?_⟩
  rw [State.emit_buf, Memory.bit_setBits hw, Bool.or_eq_true, decide_eq_true_iff, List.mem_flatMap]
  simp only [mem_lanes]

/-- Settles O41: the outcomes of the two checks, and the AND accumulator where both pass. -/
theorem hasAnswer : Obligations.HasAnswer := by
  intro x s
  refine ⟨fun hv => withFilter_of_invalid hv, exec_has_of_long, fun hv hx => ?_⟩
  rw [exec_has_of_fit hv hx, boolByte]
  simp only [Memory.shiftRight_and_one_eq_one_iff_bit, Memory.allBits_iff, lanes, List.forall_mem_map, laneIndex]

/-- Settles O42: with no lanes there is no bit to set and none to test. -/
theorem noSeedsMeansEverythingIsMember : Obligations.NoSeedsMeansEverythingIsMember := by
  intro x s hv hk hx
  have hl : lanes Config.engine s x = [] := lanes_of_k_eq_zero _ hk x
  have hholds : s.Holds x := ⟨hv, hx, by simp [hl]⟩
  refine ⟨hl, ?_, hholds.exec_has⟩
  rw [exec_add_of_fit hv hx, hl, Memory.setBits_nil]

end

section
/-! ### Reset of the bit array: CLEAR -/

namespace Sys2Proof.Machine

namespace Memory

/-- The bytes that were zeroed, read back (R125). -/
theorem readRange_zeroBelow (mem : Memory) (n : Nat) : (mem.zeroBelow n).readRange n = List.replicate n 0x00#8 := by
  rw [← readRange_nil, readRange_eq_iff]
  intro a ha
  rw [read_zeroBelow, if_pos ha, read_nil]

/-- One addressed bit that is 0 makes the AND accumulator 0 (R115). -/
theorem allBits_eq_false_of_mem {mem : Memory} {idxs : List Nat} {i : Nat} (hi : i ∈ idxs) (hbit : mem.bit i = false) :
    mem.allBits idxs = false := by
  rw [allBits_eq_all, List.all_eq_false]
  exact ⟨i, hi, by simp [hbit]⟩

end Memory

theorem exec_clear_of_valid {s : State} (hv : s.valid = true) :
    exec .clear s =
      .next (({ s with buf := s.buf.zeroBelow s.liveBytes } : State).emit [0x00, 0, 0, 0, 0, 0, 0, 0x07]) :=
  exec_of_effect (i := .clear) ⟨hv, rfl, rfl⟩

/-- A `CLEAR` that is answered `OK` leaves a Filter of the same size with no bit set (R125). -/
theorem CompletesOk.zeroed_of_clear {s t : State} (h : CompletesOk .clear s t) :
    t.valid = true ∧ t.bitcount = s.bitcount ∧ ∀ n, n < t.bitcount.toNat → t.buf.bit n = false := by
  obtain ⟨_, payload, ⟨hv, -, rfl⟩, rfl⟩ := completesOk_iff.1 h
  exact ⟨hv, rfl, fun n hn => Memory.bit_zeroBelow (div_lt_ceil8 hn)⟩

/-- With a seed there is a lane. -/
theorem exists_mem_lanes (c : Config) {s : State} (hk : 1 ≤ s.k.toNat) (x : Message) : ∃ i, i ∈ lanes c s x :=
  List.exists_mem_of_length_pos ((length_lanes c s x).symm ▸ hk)

/-- `HAS` answers false on a Filter with a seed and no bit set, whatever the item (R127). -/
theorem exec_has_of_no_bit {s : State} {x : Message} (hv : s.valid = true) (hm : 1 ≤ s.bitcount.toNat) (hk : 1 ≤ s.k.toNat)
    (hbit : ∀ n, n < s.bitcount.toNat → s.buf.bit n = false) (hx : x.length ≤ Config.engine.itemMax.toNat) :
    exec (.has x) s = .next (s.emit [0x00, 1, 0, 0, 0, 0, 0, 0x06, 0x00]) := by
  obtain ⟨i, hi⟩ := exists_mem_lanes Config.engine hk x
  rw [exec_has_of_fit hv hx, Memory.allBits_eq_false_of_mem hi (hbit i (lanes_lt hm hi))]
  rfl

end Sys2Proof.Machine

open Sys2Proof Sys2Proof.Machine

/-- Settles O45: the outcome of the one check, and the zeros in place of the live buffer where it passes. -/
theorem clearEffect : Obligations.ClearEffect := by
  refine fun s => ⟨fun hv => withFilter_of_invalid hv, fun hv =>
    ⟨_, exec_clear_of_valid hv, rfl, ?filter, fun a ha => ?inside, fun a ha => ?outside⟩⟩
  case filter => exact congrArg (FilterValue.mk _ _) (Memory.readRange_zeroBelow s.buf s.liveBytes)
  case inside => exact (Memory.read_zeroBelow _ _ _).trans (if_pos ha)
  case outside => exact (Memory.read_zeroBelow _ _ _).trans (if_neg (Nat.not_lt.2 ha))

/-- Settles O46: no bit below `BITCOUNT` is left, so any lane of an item answers for it; without lanes nothing is tested. -/
theorem clearResetsAnswers : Obligations.ClearResetsAnswers := by
  intro s t hm hc
  obtain ⟨hv, hcount, hbit⟩ := hc.zeroed_of_clear
  obtain ⟨hgetbit, -, -⟩ := bitRoundTrip
  refine ⟨fun i hi => hgetbit .clear s t i (.inr rfl) hc hi, fun x hx hk => ?seeds, fun x hx hk => ?empty⟩
  case seeds => exact exec_has_of_no_bit hv (hcount.symm ▸ hm) hk hbit hx
  case empty =>
    obtain ⟨-, -, hhas⟩ := noSeedsMeansEverythingIsMember x t hv hk hx
    exact hhas

end

section
/-! ### Serialization: SERIALIZE and LOAD, and the two round trips -/

namespace Sys2Proof.Machine

/-! The checks of an image in order: a lemma for each that fails, given that those before it pass (R138). -/

section
variable {c : Config} {I : Message}

theorem imageStatus_of_empty (hn : I.length = 0) : imageStatus c I = .image := if_pos hn

theorem imageStatus_of_version_ne (hn : I.length ≠ 0) (h0 : I.getD 0 0 ≠ 0x01) : imageStatus c I = .version := by
  rw [imageStatus, if_neg hn, if_pos h0]

theorem imageStatus_of_short_header (hn : I.length ≠ 0) (h0 : I.getD 0 0 = 0x01) (h8 : I.length < 8) :
    imageStatus c I = .image := by
  rw [imageStatus, if_neg hn, if_neg (not_not.2 h0), if_pos h8]

theorem imageStatus_of_short_seeds (h0 : I.getD 0 0 = 0x01) (h8 : 8 ≤ I.length) (hs : I.length < 8 + 4 * imageSeedCount I) :
    imageStatus c I = .image := by
  rw [imageStatus, if_neg (by omega), if_neg (not_not.2 h0), if_neg (Nat.not_lt.2 h8), if_pos hs]

/-- Where the header and the seeds are there, the last four checks decide. -/
theorem imageStatus_of_seeds (h0 : I.getD 0 0 = 0x01) (hs : 8 + 4 * imageSeedCount I ≤ I.length) :
    imageStatus c I =
      if imageBitCount I = 0 then .image
      else if (imageBuffer I).length ≠ ceil8 (imageBitCount I) then .image
      else if c.maxBits < imageBitCount I then .capacity
      else if c.kMax.toNat < imageSeedCount I then .capacity
      else .ok := by
  rw [imageStatus, if_neg (by omega), if_neg (not_not.2 h0), if_neg (by omega), if_neg (Nat.not_lt.2 hs)]

theorem imageStatus_of_bitCount_eq_zero (h0 : I.getD 0 0 = 0x01) (hs : 8 + 4 * imageSeedCount I ≤ I.length)
    (hm : imageBitCount I = 0) : imageStatus c I = .image := by
  rw [imageStatus_of_seeds h0 hs, if_pos hm]

theorem imageStatus_of_buffer_length_ne (h0 : I.getD 0 0 = 0x01) (hs : 8 + 4 * imageSeedCount I ≤ I.length)
    (hm : imageBitCount I ≠ 0) (hb : (imageBuffer I).length ≠ ceil8 (imageBitCount I)) : imageStatus c I = .image := by
  rw [imageStatus_of_seeds h0 hs, if_neg hm, if_pos hb]

theorem imageStatus_of_maxBits_lt (h0 : I.getD 0 0 = 0x01) (hs : 8 + 4 * imageSeedCount I ≤ I.length)
    (hm : imageBitCount I ≠ 0) (hb : (imageBuffer I).length = ceil8 (imageBitCount I)) (hmax : c.maxBits < imageBitCount I) :
    imageStatus c I = .capacity := by
  rw [imageStatus_of_seeds h0 hs, if_neg hm, if_neg (not_not.2 hb), if_pos hmax]

theorem imageStatus_of_kMax_lt (h0 : I.getD 0 0 = 0x01) (hs : 8 + 4 * imageSeedCount I ≤ I.length)
    (hm : imageBitCount I ≠ 0) (hb : (imageBuffer I).length = ceil8 (imageBitCount I)) (hmax : imageBitCount I ≤ c.maxBits)
    (hkmax : c.kMax.toNat < imageSeedCount I) : imageStatus c I = .capacity := by
  rw [imageStatus_of_seeds h0 hs, if_neg hm, if_neg (not_not.2 hb), if_neg (Nat.not_lt.2 hmax), if_pos hkmax]

end

/-! The state that a `LOAD` leaves (R138, R140). -/

/-- The Filter read from an image in place of the one there was, the channels as they were. -/
def State.loaded (s : State) (I : Message) : State :=
  { s with
    valid := true
    bitcount := BitVec.ofNat 48 (imageBitCount I)
    k := BitVec.ofNat 16 (imageSeedCount I)
    seeds := imageSeeds I
    buf := Memory.ofBytesAt 0 (imageBuffer I) }

theorem effectOf_load_iff {I : Message} {s s' : State} {payload : Message} :
    EffectOf (.load I) s s' payload ↔ imageStatus Config.engine I = .ok ∧ payload = [] ∧ s' = s.loaded I := Iff.rfl

theorem loadOn_of_passes {c : Config} {I : Message} (h : imageStatus c I = .ok) (s : State) :
    loadOn c I s = .next ((s.loaded I).emit [0x00, 0, 0, 0, 0, 0, 0, 0x09]) := if_pos h

theorem loadOn_of_fails {c : Config} {I : Message} {st : Status} (h : imageStatus c I = st) (hst : st ≠ .ok) (s : State) :
    loadOn c I s = .next (s.emit (responseMessage st 0x09 [])) := by
  rw [loadOn, h, if_neg hst]
  rfl

namespace State

variable (s : State) (I : Message)

@[simp] theorem toNat_loaded_bitcount : (s.loaded I).bitcount.toNat = imageBitCount I := toNat_imageBitCount I

@[simp] theorem toNat_loaded_k : (s.loaded I).k.toNat = imageSeedCount I := toNat_imageSeedCount I

theorem loaded_liveSeeds : (s.loaded I).liveSeeds = imageSeeds I := by
  refine liveSeeds_of_counted ?_
  rw [toNat_loaded_k]
  exact length_seedsOfBytes _ _

/-- Seed `j` is read from its own four bytes. -/
theorem loaded_seed {I : Message} {j : Nat} (hj : j < imageSeedCount I) :
    (s.loaded I).seed j = BitVec.ofNat 32 (leValue (slice I (8 + 4 * j) 4)) := by
  rw [← slice_drop]
  exact getD_seedsOfBytes _ _ _ hj

/-- The buffer is copied verbatim. -/
theorem loaded_liveBuffer {I : Message} (hb : (imageBuffer I).length = ceil8 (imageBitCount I)) :
    (s.loaded I).liveBuffer = imageBuffer I := by
  rw [liveBuffer, liveBytes, toNat_loaded_bitcount, ← hb]
  exact Memory.readRange_ofBytesAt _

end State

/-- An image that passes the checks loads into any state (R139). -/
theorem loadOn_completes {c : Config} {I : Message} (h : imageStatus c I = .ok) (s : State) :
    ∃ t, loadOn c I s = .next t ∧ t.valid = true ∧ t.bitcount.toNat = imageBitCount I ∧ t.k.toNat = imageSeedCount I ∧
      (∀ j, j < imageSeedCount I → t.seed j = BitVec.ofNat 32 (leValue (slice I (8 + 4 * j) 4))) ∧
      t.liveBuffer = imageBuffer I ∧ t.inbox = s.inbox ∧ t.out = s.out ++ [[0x00, 0, 0, 0, 0, 0, 0, 0x09]] := by
  obtain ⟨-, -, -, hb, -, -⟩ := (imageStatus_ok_iff c I).1 h
  exact ⟨_, loadOn_of_passes h s, rfl, s.toNat_loaded_bitcount I, s.toNat_loaded_k I, fun _ => s.loaded_seed,
    s.loaded_liveBuffer hb, rfl, rfl⟩

/-! The image of a Filter (R130, R135). -/

/-- `Image(m, s, b)` of the Filter value; it means something while `K <= 255`. -/
def State.image (s : State) : Message := imageMessage s.bitcount (s.k.setWidth 8) s.liveSeeds s.liveBuffer

theorem exec_serialize_of_fit {s : State} (hv : s.valid = true) (hk : s.k.toNat ≤ 255) :
    exec .serialize s = .next (s.emit (responseMessage .ok 0x08 s.image)) :=
  exec_of_effect (i := .serialize) ⟨hv, hk, rfl, rfl⟩

theorem exec_serialize_of_many_seeds {s : State} (hv : s.valid = true) (hk : 255 < s.k.toNat) :
    exec .serialize s = .next (s.emit [0x08, 0, 0, 0, 0, 0, 0, 0x08]) :=
  (withFilter_of_valid hv).trans (if_pos hk)

namespace State

@[simp] theorem emit_image (s : State) (P : Message) : (s.emit P).image = s.image := rfl

@[simp] theorem length_image (s : State) : s.image.length = 8 + 4 * s.k.toNat + ceil8 s.bitcount.toNat := by
  rw [image, length_imageMessage, length_liveSeeds, length_liveBuffer, liveBytes]

@[simp] theorem imageBitCount_image (s : State) : imageBitCount s.image = s.bitcount.toNat := imageBitCount_imageMessage ..

section
variable {s : State} (hk : s.k.toNat ≤ 255)
include hk

/-- The seed-count byte counts the seeds where there are not more than it can say. -/
theorem length_liveSeeds_eq_seedCountByte : s.liveSeeds.length = (s.k.setWidth 8).toNat := by
  rw [length_liveSeeds, BitVec.toNat_setWidth]; omega

theorem imageSeedCount_image : imageSeedCount s.image = s.k.toNat := by
  rw [image, imageSeedCount_imageMessage, ← length_liveSeeds_eq_seedCountByte hk, length_liveSeeds]

theorem imageSeeds_image : imageSeeds s.image = s.liveSeeds :=
  imageSeeds_imageMessage _ (length_liveSeeds_eq_seedCountByte hk) _

theorem imageBuffer_image : imageBuffer s.image = s.liveBuffer :=
  imageBuffer_imageMessage _ (length_liveSeeds_eq_seedCountByte hk) _

theorem length_imageBuffer_image : (imageBuffer s.image).length = ceil8 (imageBitCount s.image) := by
  rw [imageBuffer_image hk, length_liveBuffer, imageBitCount_image, liveBytes]

/-- The image of a Filter passes the checks of every engine whose capacities the Filter fits. -/
theorem imageStatus_image {c : Config} (hm : 1 ≤ s.bitcount.toNat) (hmax : s.bitcount.toNat ≤ c.maxBits)
    (hkmax : s.k.toNat ≤ c.kMax.toNat) : imageStatus c s.image = .ok := by
  rw [imageStatus_ok_iff, length_imageBuffer_image hk, imageBitCount_image, imageSeedCount_image hk, length_image]
  exact ⟨rfl, Nat.le_add_right _ _, Nat.pos_iff_ne_zero.1 hm, rfl, hmax, hkmax⟩

/-- What an image was written from is what is read from it: `LOAD` after `SERIALIZE` (R142 (a)). -/
theorem filter_loaded_image (t : State) : (t.loaded s.image).filter = s.filter := by
  have hm : (t.loaded s.image).bitcount = s.bitcount :=
    BitVec.eq_of_toNat_eq ((t.toNat_loaded_bitcount _).trans s.imageBitCount_image)
  rw [filter, hm, loaded_liveSeeds, imageSeeds_image hk, loaded_liveBuffer _ (length_imageBuffer_image hk), imageBuffer_image hk]
  rfl

end

end State

/-- An image is its fields, written out (R130). -/
theorem imageMessage_of_fields {I : Message} (h0 : I.getD 0 0 = 0x01) (hs : 8 + 4 * imageSeedCount I ≤ I.length) :
    imageMessage (BitVec.ofNat 48 (imageBitCount I)) (I.getD 7 0) (imageSeeds I) (imageBuffer I) = I := by
  have hpayload : bytesOfSeeds (imageSeeds I) ++ imageBuffer I = I.drop 8 := by
    rw [imageSeeds, bytesOfSeeds_seedsOfBytes _ _ (by rw [List.length_drop]; omega), imageBuffer, ← List.drop_drop,
      List.take_append_drop]
  have hfields : I = 0x01 :: (leBytes 6 (imageBitCount I) ++ (I.getD 7 0 :: I.drop 8)) := by
    rw [← h0]; exact message_eq_fields (by omega)
  rw [imageMessage, toNat_imageBitCount, List.append_assoc, hpayload, List.append_assoc, List.append_assoc]
  exact hfields.symm

/-- What is read from an image writes the image again: `SERIALIZE` after `LOAD` (R142 (b)). -/
theorem State.image_loaded {c : Config} {I : Message} (h : imageStatus c I = .ok) (s : State) : (s.loaded I).image = I := by
  obtain ⟨h0, hs, -, hb, -, -⟩ := (imageStatus_ok_iff c I).1 h
  have hk : (s.loaded I).k.setWidth 8 = I.getD 7 0 := by
    apply BitVec.eq_of_toNat_eq
    rw [BitVec.toNat_setWidth, toNat_loaded_k]
    exact Nat.mod_eq_of_lt (imageSeedCount_lt I)
  rw [image, hk, loaded_liveSeeds, loaded_liveBuffer s hb]
  exact imageMessage_of_fields h0 hs

/-- `GETBIT` and `HAS` change nothing and read nothing but the Filter value (R24). -/
theorem exec_query_of_sameEngine {i : Instr} {s t : State} (he : s.SameEngine t) (hm : 1 ≤ s.bitcount.toNat)
    (hop : i.op = .getbit ∨ i.op = .has) : ∃ P, exec i s = .next (s.emit P) ∧ exec i t = .next (t.emit P) := by
  suffices hrel : Related (fun s' t' => ∃ P, s' = s.emit P ∧ t' = t.emit P) (exec i s) (exec i t) by
    obtain ⟨_, _, hs, ht, P, rfl, rfl⟩ := hrel
    exact ⟨P, hs, ht⟩
  cases i with
  | getbit j =>
    refine .withIndex _ _ he.1 he.bitcount (fun P => ⟨P, rfl, rfl⟩) fun hv hj => ?_
    rw [← he.bit hv hj]
    exact .emit ⟨_, rfl, rfl⟩
  | has x =>
    refine .withItems _ _ _ he.1 (fun P => ⟨P, rfl, rfl⟩) fun hv => ?_
    rw [← he.lanes hv, ← allBits_lanes_congr Config.engine hm (fun _ hn => he.bit hv hn)]
    exact .emit ⟨_, rfl, rfl⟩
  | _ => simp [Instr.op] at hop

end Sys2Proof.Machine

open Sys2Proof Sys2Proof.Machine

/-- Settles O51: the image passes the checks, and what is read from it is the Filter value, which is all that the queries read. -/
theorem serializeThenLoadRestoresFilter : Obligations.SerializeThenLoadRestoresFilter := by
  intro s hv hm hk
  refine ⟨s.image, exec_serialize_of_fit hv hk, fun c t hmax hkmax => ?_⟩
  have hload := loadOn_of_passes (State.imageStatus_image hk hm hmax hkmax) t
  have hfilter : (t.loaded s.image).filter = s.filter := State.filter_loaded_image hk t
  exact ⟨_, hload, rfl, hfilter, rfl, rfl, fun i => exec_query_of_sameEngine ⟨hv, fun _ => hfilter.symm⟩ hm⟩

/-- Settles O52: the state that `LOAD` leaves has the image as its own. -/
theorem loadThenSerializeReturnsImage : Obligations.LoadThenSerializeReturnsImage := by
  intro I s t hc
  obtain ⟨s', payload, he, rfl⟩ := completesOk_iff.1 hc
  obtain ⟨hI, rfl, rfl⟩ := effectOf_load_iff.1 he
  have hk : (s.loaded I).k.toNat ≤ 255 := by
    rw [State.toNat_loaded_k]; exact Nat.le_of_lt_succ (imageSeedCount_lt I)
  refine (exec_serialize_of_fit ?_ ?_).trans ?_
  · rfl
  · exact hk
  · rw [State.emit_image, State.image_loaded hI]

/-- Settles O48: the outcomes of the two checks, and the image with its seed-count byte where both pass. -/
theorem serializeAnswer : Obligations.SerializeAnswer := by
  refine fun s => ⟨fun hv => withFilter_of_invalid hv, exec_serialize_of_many_seeds, fun hv hk => ?_⟩
  rw [exec_serialize_of_fit hv hk, responseMessage, State.length_image, BitVec.ofNat_toNat]
  rfl

/-- Settles O49: one lemma for each check that fails, and the loaded state where all of them pass. -/
theorem loadChecksAndEffect : Obligations.LoadChecksAndEffect := by
  intro c I s n m k answeredWith
  have hlen : (imageBuffer I).length = n - 8 - 4 * k := length_imageBuffer I
  refine ⟨fun hn => ?empty, fun hn h0 => ?version, fun hn h0 h8 => ?header, fun h0 h8 hs => ?seeds, fun h0 hs hm => ?bits,
    fun h0 hs hm hb => ?buffer, fun h0 hs hm hb hmax => ?maxBits, fun h0 hs hm hb hmax hkmax => ?kMax,
    fun h0 hs hm hb hmax hkmax => ?done, rfl⟩
  case empty => exact loadOn_of_fails (imageStatus_of_empty hn) nofun s
  case version => exact loadOn_of_fails (imageStatus_of_version_ne hn h0) nofun s
  case header => exact loadOn_of_fails (imageStatus_of_short_header hn h0 h8) nofun s
  case seeds => exact loadOn_of_fails (imageStatus_of_short_seeds h0 h8 hs) nofun s
  case bits => exact loadOn_of_fails (imageStatus_of_bitCount_eq_zero h0 hs hm) nofun s
  case buffer => exact loadOn_of_fails (imageStatus_of_buffer_length_ne h0 hs hm (hlen.trans_ne hb)) nofun s
  case maxBits => exact loadOn_of_fails (imageStatus_of_maxBits_lt h0 hs hm (hlen.trans hb) hmax) nofun s
  case kMax => exact loadOn_of_fails (imageStatus_of_kMax_lt h0 hs hm (hlen.trans hb) hmax hkmax) nofun s
  case done => exact loadOn_completes ((imageStatus_ok_iff c I).2 ⟨h0, hs, hm, hlen.trans hb, hmax, hkmax⟩) s

/-- Settles O50: the completion of `LOAD` on the model's own engine. -/
theorem loadCompletes : Obligations.LoadCompletes := by
  intro I s h0 hm hlen hmax hkmax
  have hs : 8 + 4 * imageSeedCount I ≤ I.length := hlen ▸ Nat.le_add_right _ _
  have hb : (imageBuffer I).length = ceil8 (imageBitCount I) := by
    rw [imageBuffer, List.length_drop]
    exact Nat.sub_eq_of_eq_add' hlen
  obtain ⟨t, hx, hv, htm, htk, -, htb, hin, hout⟩ :=
    loadOn_completes ((imageStatus_ok_iff Config.engine I).2 ⟨h0, hs, hm, hb, hmax, hkmax⟩) s
  exact ⟨t, hx, hv, htm, htk, htb, hin, hout⟩

end

section
/-! ### Faults: what rejects a message, which statuses a command can be answered with, and what a fault leaves unchanged -/

namespace Sys2Proof

/-- The payload shapes that R173 calls wrong, by the value of the opcode byte; no other opcode has one. -/
def ShapeWrong (opcode : Nat) (p : Message) : Prop :=
  (opcode = 1 ∧ (p.length < 8 ∨ p.length ≠ 8 + 4 * leValue (slice p 6 2))) ∨
  ((opcode = 2 ∨ opcode = 3) ∧ p.length ≠ 6) ∨
  ((opcode = 7 ∨ opcode = 8) ∧ p.length ≠ 0) ∨
  (opcode = 5 ∧ (p.length < 6 ∨ itemsOfBytes (leValue (p.take 6)) (p.drop 6) = none))

/-- The wrong shapes are those the payload parse of R54 step 7 fails on. -/
theorem shapeWrong_iff (op : Op) (p : Message) : ShapeWrong op.byte.toNat p ↔ decodePayload op p = none := by
  cases op with
  | config => simp [ShapeWrong, Op.byte, decodePayload, or_iff_not_imp_left]
  | addv => simp [ShapeWrong, Op.byte, decodePayload, or_iff_not_imp_left]
  | _ => simp [ShapeWrong, Op.byte, decodePayload]

/-- The message is rejected with the status `st`. -/
def RejectedWith (M : Message) (st : Status) : Prop := ∃ e, decode M = .error e ∧ e.status = st

theorem rejectedWith_iff_of_error {M : Message} {e : DecodeError} (h : decode M = .error e) (st : Status) :
    RejectedWith M st ↔ e.status = st := by
  simp [RejectedWith, h]

theorem not_rejectedWith_of_ok {M : Message} {i : Instr} (h : decode M = .ok i) (st : Status) : ¬ RejectedWith M st := by
  simp [RejectedWith, h]

/-- With a true length field and a legal opcode, the reserved byte and the payload are all that can be wrong (R54 steps 5 and 7). -/
theorem rejectedWith_iff_of_legal {M : Message} {op : Op} (h8 : 8 ≤ M.length) (hl : M.length = 8 + headerPlen M)
    (hop : headerOpcode M = op.byte) (st : Status) :
    RejectedWith M st ↔ st = .format ∧ (headerRsv M ≠ 0 ∨ decodePayload op (M.drop 8) = none) := by
  have hd := decode_of_legal h8 hl hop
  by_cases hr : headerRsv M = 0
  · rw [if_neg (not_not.2 hr)] at hd
    cases hp : decodePayload op (M.drop 8) with
    | none =>
      rw [hp] at hd
      rw [rejectedWith_iff_of_error hd, and_iff_left (Or.inr rfl)]
      exact eq_comm
    | some i =>
      rw [hp] at hd
      simp [not_rejectedWith_of_ok hd, hr]
  · rw [if_pos hr] at hd
    rw [rejectedWith_iff_of_error hd, and_iff_left (Or.inl hr)]
    exact eq_comm

theorem DecodeError.status_cases (e : DecodeError) : e.status = .format ∨ e.status = .opcode := by cases e <;> decide

end Sys2Proof

namespace Sys2Proof.Machine

/-- The command `op` on the state `s` ends with a next state and one response of its own, whose status is one of `sts` (R182). -/
def AnswersFrom (sts : List Status) (op : Op) (s : State) (r : Result) : Prop :=
  ∃ t st payload, r = .next t ∧ t.out = s.out ++ [responseMessage st op.byte payload] ∧ st ∈ sts

/-! The two ends of a command, and each set of checks on the way to its body. -/

section
variable {sts : List Status} {op : Op} {s s' : State} {body : Result} {payload : Message}

theorem AnswersFrom.respond (hok : .ok ∈ sts) (hout : s'.out = s.out) : AnswersFrom sts op s (respond op payload s') :=
  ⟨_, .ok, payload, rfl, by rw [State.emit_out, hout], hok⟩

theorem AnswersFrom.raiseFault {st : Status} (hst : st ∈ sts) : AnswersFrom sts op s (raiseFault st op.byte s) :=
  ⟨_, st, [], rfl, rfl, hst⟩

theorem AnswersFrom.withFilter (hn : .notConfigured ∈ sts) (hbody : AnswersFrom sts op s body) :
    AnswersFrom sts op s (withFilter op s body) := by
  rcases withFilter_cases op s body with ⟨-, h⟩ | ⟨-, h⟩
  · rw [h]; exact hbody
  · rw [h]; exact .raiseFault hn

theorem answersFrom_withIndex {j : Index} (hout : s'.out = s.out) :
    AnswersFrom [.ok, .notConfigured, .range] op s (withIndex op j s (respond op payload s')) := by
  refine .withFilter (by decide) ?_
  split_ifs
  · exact .raiseFault (by decide)
  · exact .respond (by decide) hout

theorem answersFrom_withItems {c : Config} {xs : List Message} (hout : s'.out = s.out) :
    AnswersFrom [.ok, .notConfigured, .capacity] op s (withItems c op xs s (respond op payload s')) := by
  refine .withFilter (by decide) ?_
  split_ifs
  · exact .raiseFault (by decide)
  · exact .respond (by decide) hout

end

theorem answersFrom_configOn (c : Config) (m : Index) (k : Count) (seeds : List Seed) (s : State) :
    AnswersFrom [.ok, .config, .capacity] .config s (configOn c m k seeds s) := by
  unfold configOn
  split_ifs
  · exact .raiseFault (by decide)
  · exact .raiseFault (by decide)
  · exact .raiseFault (by decide)
  · exact .respond (by decide) rfl

theorem answersFrom_execClear (s : State) : AnswersFrom [.ok, .notConfigured] .clear s (execClear s) :=
  .withFilter (by decide) (.respond (by decide) rfl)

theorem answersFrom_execSerialize (s : State) :
    AnswersFrom [.ok, .notConfigured, .seedOverflow] .serialize s (execSerialize s) := by
  refine .withFilter (by decide) ?_
  split_ifs
  · exact .raiseFault (by decide)
  · exact .respond (by decide) rfl

theorem answersFrom_loadOn (c : Config) (I : Message) (s : State) :
    AnswersFrom [.ok, .version, .image, .capacity] .load s (loadOn c I s) := by
  unfold loadOn
  split_ifs
  · exact .respond (by decide) rfl
  · exact .raiseFault (statuses_of_image c I)

/-- Without a Filter the seven commands that need one do not run (R175). -/
theorem exec_of_invalid {i : Instr} {s : State} (hc : i.op ≠ .config) (hl : i.op ≠ .load) (hv : s.valid = false) :
    exec i s = .next (s.emit [0x03, 0, 0, 0, 0, 0, 0, i.op.byte]) := by
  cases i with
  | config m k seeds => exact absurd rfl hc
  | load I => exact absurd rfl hl
  | _ => exact withFilter_of_invalid hv

/-! The two capacities of a Filter, whichever of them is exceeded (R176). -/

theorem configOn_of_exceeds {c : Config} {m : Index} {k : Count} (hm : m ≠ 0)
    (h : c.maxBits < m.toNat ∨ c.kMax.toNat < k.toNat) (seeds : List Seed) (s : State) :
    configOn c m k seeds s = raiseFault .capacity Op.config.byte s := by
  rcases Nat.lt_or_ge c.maxBits m.toNat with hmax | hmax
  · exact configOn_of_maxBits_lt hm hmax seeds s
  · exact configOn_of_kMax_lt hm hmax (h.resolve_left hmax.not_gt) seeds s

theorem imageStatus_of_exceeds {c : Config} {I : Message} (h0 : I.getD 0 0 = 0x01) (hs : 8 + 4 * imageSeedCount I ≤ I.length)
    (hm : imageBitCount I ≠ 0) (hb : (imageBuffer I).length = ceil8 (imageBitCount I))
    (h : c.maxBits < imageBitCount I ∨ c.kMax.toNat < imageSeedCount I) : imageStatus c I = .capacity := by
  rcases Nat.lt_or_ge c.maxBits (imageBitCount I) with hmax | hmax
  · exact imageStatus_of_maxBits_lt h0 hs hm hb hmax
  · exact imageStatus_of_kMax_lt h0 hs hm hb hmax (h.resolve_left hmax.not_gt)

end Sys2Proof.Machine

open Sys2Proof Sys2Proof.Machine

/-- Settles O8: a status other than `OK` comes with an empty payload and the state as it was. -/
theorem faultChangesNothing : Obligations.FaultChangesNothing := by
  intro s M rest h
  obtain ⟨s', st, payload, hstep, -, hout, -, hfault⟩ := step_command_cases h
  refine ⟨_, responseMessage st (headerOpcode M) payload, hstep, by rw [State.emit_out, hout], fun hne => ?_⟩
  rw [getD_responseMessage_zero, statusByte_ne_zero_iff] at hne
  obtain ⟨rfl, rfl⟩ := hfault hne
  exact ⟨rfl, rfl, rfl, rfl, rfl, rfl, rfl⟩

/-- Settles O14: by the step of R54 at which a message fails. -/
theorem rejectionCauses : Obligations.RejectionCauses := by
  intro M opcode p shapeWrong
  change (RejectedWith M .format ↔ _) ∧ (RejectedWith M .opcode ↔ _)
  rcases Nat.lt_or_ge M.length 8 with h8 | h8
  · have hrej := rejectedWith_iff_of_error (decode_of_short h8)
    exact ⟨iff_of_true ((hrej _).2 rfl) (.inl h8), iff_of_false (mt (hrej _).1 nofun) fun ⟨h8', _⟩ => h8'.not_gt h8⟩
  rcases ne_or_eq M.length (8 + headerPlen M) with hl | hl
  · have hrej := rejectedWith_iff_of_error (decode_of_length_ne h8 hl)
    exact ⟨iff_of_true ((hrej _).2 rfl) (.inr (.inl hl)), iff_of_false (mt (hrej _).1 nofun) fun ⟨_, hl', _⟩ => hl hl'⟩
  cases hop : Op.ofByte (headerOpcode M) with
  | none =>
    have hrej := rejectedWith_iff_of_error (decode_of_illegal h8 hl hop)
    have hillegal : opcode = 0 ∨ 10 ≤ opcode := (Op.ofByte_eq_none_iff _).1 hop
    refine ⟨iff_of_false (mt (hrej _).1 nofun) ?_, iff_of_true ((hrej _).2 rfl) ⟨h8, hl, hillegal⟩⟩
    rintro (h | h | ⟨h1, h9, -⟩)
    · exact h8.not_gt h
    · exact h hl
    · omega
  | some op =>
    have hbyte : headerOpcode M = op.byte := (Op.byte_of_ofByte hop).symm
    have hrej := rejectedWith_iff_of_legal h8 hl hbyte
    have hlegal : 1 ≤ opcode ∧ opcode ≤ 9 := (Op.ofByte_isSome_iff _).1 (Option.isSome_of_eq_some hop)
    have hshape : shapeWrong ↔ decodePayload op p = none := by
      rw [← shapeWrong_iff, ← hbyte]; rfl
    refine ⟨?_, iff_of_false (fun h => nomatch ((hrej _).1 h).1) fun ⟨_, _, h⟩ => by omega⟩
    rw [hrej, ← hshape]
    constructor
    · exact fun ⟨_, h⟩ => .inr (.inr ⟨hlegal.1, hlegal.2, h⟩)
    · rintro (h | h | ⟨-, -, h⟩)
      · exact absurd h h8.not_gt
      · exact absurd hl h
      · exact ⟨rfl, h⟩

/-- Settles O22: command by command, the statuses of its checks and of its body. -/
theorem statusesPerCommand : Obligations.StatusesPerCommand := by
  refine ⟨fun M e _ => e.status_cases, fun i s => ?_⟩
  cases i with
  | config m k seeds => exact answersFrom_configOn _ m k seeds s
  | setbit j => exact answersFrom_withIndex rfl
  | getbit j => exact answersFrom_withIndex rfl
  | add x => exact answersFrom_withItems rfl
  | addv xs => exact answersFrom_withItems (by rw [foldl_insertItem])
  | has x => exact answersFrom_withItems rfl
  | clear => exact answersFrom_execClear s
  | serialize => exact answersFrom_execSerialize s
  | load I => exact answersFrom_loadOn _ I s

/-- Settles O21: the seven commands fail their first check, and `E_NOT_CONFIGURED` is no status of the other two. -/
theorem unconfiguredEngineFaults : Obligations.UnconfiguredEngineFaults := by
  refine ⟨fun i s => exec_of_invalid, fun i s t hop hx hout => ?_⟩
  obtain ⟨t', st, payload, hx', hout', hst⟩ := statusesPerCommand.2 i s
  cases hx.symm.trans hx'
  have hP : [responseMessage st i.op.byte payload] = [responseMessage .notConfigured i.op.byte []] :=
    List.append_cancel_left (hout'.symm.trans hout)
  obtain ⟨rfl, -, -⟩ := responseMessage_inj (List.singleton_inj.1 hP)
  rcases hop with hop | hop
  · rw [hop] at hst; exact absurd hst (by decide)
  · rw [hop] at hst; exact absurd hst (by decide)

/-- Settles O44: whichever capacity is exceeded, the check that finds it comes before any write. -/
theorem exceededCapacityFaults : Obligations.ExceededCapacityFaults := by
  intro c s
  refine ⟨fun m k seeds hm h => configOn_of_exceeds hm h seeds s, fun I h0 hs hm hlen h => ?load,
    fun x hv hx => ⟨withItems_of_long hv (List.mem_singleton_self x) hx, withItems_of_long hv (List.mem_singleton_self x) hx⟩,
    fun items x hv hmem hx => withItems_of_long hv hmem hx⟩
  case load =>
    have hb : (imageBuffer I).length = ceil8 (imageBitCount I) := by
      rw [imageBuffer, List.length_drop]
      exact Nat.sub_eq_of_eq_add' hlen
    exact loadOn_of_fails (imageStatus_of_exceeds h0 hs hm hb h) nofun s

end

section
/-! ### Reset and the idle engine -/

open Sys2Proof Sys2Proof.Machine

/-- Settles O3: neither event is a command that is executed, so the step leaves the state after reset, with the channels kept. -/
theorem resetEventClearsValid : Obligations.ResetEventClearsValid := by
  intro s e rest h he
  have hnot : ∀ M, e ≠ .command M := by
    rcases he with rfl | ⟨_, rfl⟩
    · exact nofun
    · exact nofun
  exact ⟨_, step_afterReset h hnot, State.afterReset_valid _, State.afterReset_inbox _, State.afterReset_out _⟩

/-- Settles O4: the step of an engine with nothing to do. -/
theorem idleEngineWaits : Obligations.IdleEngineWaits :=
  fun _ => step_idle

end
